-- ==== Sys2Proof/Word.lean ====
section
/-!
DEFINITION. The words of the machine: registers, addresses, instruction words and bytes are bit vectors because the
spec slices, adds and shifts them (spec/00_scope.md section 5.1; 10_state.md R10; 20_memory.md R23; 30_encoding.md R40).
-/

namespace Sys2Proof

/-- A 32-bit word: a register's contents, an address, an instruction word (R10, R23, R40). -/
abbrev Word := BitVec 32

/-- The unit an address names (R23; the byte is the spec's decision D7, log 19). -/
abbrev Byte := BitVec 8

/-- A register number, as the 5-bit fields `rs`, `rt`, `rd` hold it (R10, R41). -/
abbrev RegNum := BitVec 5

/-- The 5-bit shift count of `sll`, `srl`, `sra` (R47). -/
abbrev Shamt := BitVec 5

/-- The 16-bit field called "constant" or "address" by the source (R43). -/
abbrev Imm := BitVec 16

end Sys2Proof
end

