-- ==== Sys2Proof/Config.lean ====
section
/-!
DEFINITION. What is fixed for a run and is not the machine's state: the parameters of spec/00_scope.md section 4 and
70_reset_and_hazards.md R110 (`PROGRAM`, `TEXT_BASE`, `DATA_MAPPED`, `BYTE_ORDER`), and the values the model names for
the one launch it calls reset. No instruction of this hardware has an undefined result (93_implementation_defined.md
Part 1), so there is no free value here.
-/

namespace Sys2Proof

/-- `BYTE_ORDER` (R26), an open parameter (decision D8). -/
inductive ByteOrder where
  | big
  | little
  deriving DecidableEq, Repr

/-- A run of data words: the `words` words whose addresses are `4 * firstWord`, `4 * firstWord + 4`, and so on.
DESIGN CHOICE (log 4): the predicate `DATA_MAPPED` is a list of these, so that it is plain data. -/
structure DataRegion where
  firstWord : Nat
  words : Nat
  deriving DecidableEq, Repr

/-- The parameters of a run (R110, R22: "they are parameters of the step relation and never change during a run").
`program` is `PROGRAM`, `textBase` is `TEXT_BASE`, `dataRegions` is `DATA_MAPPED`, `byteOrder` is `BYTE_ORDER`. -/
structure Params where
  program : List Word
  textBase : Word
  dataRegions : List DataRegion
  byteOrder : ByteOrder
  deriving DecidableEq, Repr

/-- What a byte of data memory that is not listed reads as. DESIGN CHOICE (log 6): the spec lets `MEM0` be any map, and
every map over finitely many bytes is some list, whatever this byte is. -/
def Config.unlistedByte : Byte := 0#8

/-- The value `State.reset` gives registers 1 to 31. DESIGN CHOICE (log 5): the spec gives none ("any", R21). -/
def Config.resetRegister : Word := 0#32

/-- The parameters of `State.reset`: the empty program at the spec's example text address, every word below it and every
word from the spec's example data address up mapped. DESIGN CHOICE (log 7, 8, 9): the spec leaves all four open. -/
def Config.resetParams : Params where
  program := []
  textBase := 0x00400000#32
  dataRegions := [⟨0, 0x00100000⟩, ⟨0x04004000, 0x3BFFC000⟩]
  byteOrder := .big

end Sys2Proof
end

