-- ==== Sys2Proof/Syntax.lean ====
section
/-!
DEFINITION. The fourteen instructions of spec/00_scope.md R3, one constructor per row of spec/opcode_table.json, operands
in the order of the assembler forms R55 to R58 (destination first). A field that the instruction's format fixes (`shamt`
of `add`, `rs` of `sll`: R47, R51) is no operand, and every operand has its field's width, so that every term of this type
is an instruction the hardware has.
-/

namespace Sys2Proof

inductive Instr where
  /-- R85, `sll rd, rt, shamt` -/
  | sll (rd rt : RegNum) (shamt : Shamt)
  /-- R86, `srl rd, rt, shamt` -/
  | srl (rd rt : RegNum) (shamt : Shamt)
  /-- R87, `sra rd, rt, shamt` -/
  | sra (rd rt : RegNum) (shamt : Shamt)
  /-- R60, `add rd, rs, rt` -/
  | add (rd rs rt : RegNum)
  /-- R61, `sub rd, rs, rt` -/
  | sub (rd rs rt : RegNum)
  /-- R75, `and rd, rs, rt` -/
  | and (rd rs rt : RegNum)
  /-- R76, `or rd, rs, rt` -/
  | or (rd rs rt : RegNum)
  /-- R77, `xor rd, rs, rt` -/
  | xor (rd rs rt : RegNum)
  /-- R78, `nor rd, rs, rt` -/
  | nor (rd rs rt : RegNum)
  /-- R62, `addi rt, rs, const` -/
  | addi (rt rs : RegNum) (imm : Imm)
  /-- R79, `andi rt, rs, const` -/
  | andi (rt rs : RegNum) (imm : Imm)
  /-- R80, `ori rt, rs, const` -/
  | ori (rt rs : RegNum) (imm : Imm)
  /-- R71, `lw rt, offset(rs)` -/
  | lw (rt rs : RegNum) (imm : Imm)
  /-- R72, `sw rt, offset(rs)` -/
  | sw (rt rs : RegNum) (imm : Imm)
  deriving DecidableEq, Repr

end Sys2Proof
end

