-- ==== Sys2Proof/Decode.lean ====
section
/-!
DEFINITION. Decoding, total on all 2^32 words (spec/30_encoding.md R48), the encoder written from the format tables R41
and R43 and the maps R49 and R50, the match and mask table of R48, and the byte order of a word (20_memory.md R25, R26).
Bit positions and nine of the code values are the spec's decision D2 (UNVERIFIED, log 15).
-/

namespace Sys2Proof

/-! ### Bytes of a word (R25, R26) -/

/-- The byte of `v` at the `k`-th address of its four (R26): with `big` address 0 holds bits 31:24, with `little` bits 7:0. -/
def byteOfWord (order : ByteOrder) (v : Word) (k : Nat) : Byte :=
  match order with
  | .big => v.extractLsb' (24 - 8 * k) 8
  | .little => v.extractLsb' (8 * k) 8

/-- The word whose bytes, in address order, are `b0`, `b1`, `b2`, `b3` (R26). -/
def wordOfBytes (order : ByteOrder) (b0 b1 b2 b3 : Byte) : Word :=
  match order with
  | .big => b0 ++ b1 ++ b2 ++ b3
  | .little => b3 ++ b2 ++ b1 ++ b0

/-! ### Fields (R41, R43) -/

def opField (w : Word) : BitVec 6 := w.extractLsb' 26 6
def rsField (w : Word) : RegNum := w.extractLsb' 21 5
def rtField (w : Word) : RegNum := w.extractLsb' 16 5
def rdField (w : Word) : RegNum := w.extractLsb' 11 5
def shamtField (w : Word) : Shamt := w.extractLsb' 6 5
def functField (w : Word) : BitVec 6 := w.extractLsb' 0 6
def immField (w : Word) : Imm := w.extractLsb' 0 16

/-! ### Decoding (R48) -/

/-- Why a word is reserved (R51, R52); every one of these is the refusal `ReservedInstruction` of the machine (R94). -/
inductive Reserved where
  /-- no row of R49 has this `op` -/
  | unlistedOp (op : BitVec 6)
  /-- `op = 0` and no row of R50 has this `funct` -/
  | unlistedFunct (funct : BitVec 6)
  /-- `shamt` is not 0 in an instruction that is no shift (R51) -/
  | shamtNotZero (shamt : Shamt)
  /-- `rs` is not 0 in a shift (R51) -/
  | rsNotZero (rs : RegNum)
  /-- fewer than four bytes were given (only `decodeBytes` answers this) -/
  | truncated
  deriving DecidableEq, Repr

/-- The three-register form: `shamt` must be 0 (R51). -/
def decodeThreeReg (mk : RegNum → RegNum → RegNum → Instr) (w : Word) : Except Reserved Instr :=
  if shamtField w = 0#5 then .ok (mk (rdField w) (rsField w) (rtField w))
  else .error (.shamtNotZero (shamtField w))

/-- The shift form: `rs` must be 0 (R51). -/
def decodeShift (mk : RegNum → RegNum → Shamt → Instr) (w : Word) : Except Reserved Instr :=
  if rsField w = 0#5 then .ok (mk (rdField w) (rtField w) (shamtField w))
  else .error (.rsNotZero (rsField w))

/-- The I format: destination or transfer register `rt`, then `rs`, then the 16-bit field (R43, R44). -/
def decodeImm (mk : RegNum → RegNum → Imm → Instr) (w : Word) : Except Reserved Instr :=
  .ok (mk (rtField w) (rsField w) (immField w))

/-- The group `op = 0`, selected by `funct` (R50). -/
def decodeRFormat (w : Word) : Except Reserved Instr :=
  if functField w = 32#6 then decodeThreeReg .add w
  else if functField w = 34#6 then decodeThreeReg .sub w
  else if functField w = 36#6 then decodeThreeReg .and w
  else if functField w = 37#6 then decodeThreeReg .or w
  else if functField w = 38#6 then decodeThreeReg .xor w
  else if functField w = 39#6 then decodeThreeReg .nor w
  else if functField w = 0#6 then decodeShift .sll w
  else if functField w = 2#6 then decodeShift .srl w
  else if functField w = 3#6 then decodeShift .sra w
  else .error (.unlistedFunct (functField w))

/-- R48: the instruction a word is, or the reason it is reserved. -/
def decode (w : Word) : Except Reserved Instr :=
  if opField w = 0#6 then decodeRFormat w
  else if opField w = 8#6 then decodeImm .addi w
  else if opField w = 12#6 then decodeImm .andi w
  else if opField w = 13#6 then decodeImm .ori w
  else if opField w = 35#6 then decodeImm .lw w
  else if opField w = 43#6 then decodeImm .sw w
  else .error (.unlistedOp (opField w))

/-- Decoding from memory bytes in address order, the rest of the bytes handed back (R26: the byte order of instruction words
is that of data). -/
def decodeBytes (order : ByteOrder) : List Byte → Except Reserved (Instr × List Byte)
  | b0 :: b1 :: b2 :: b3 :: rest =>
    match decode (wordOfBytes order b0 b1 b2 b3) with
    | .ok i => .ok (i, rest)
    | .error e => .error e
  | _ => .error .truncated

/-! ### Encoding (R41, R43, R49, R50) -/

/-- R41: `op ++ rs ++ rt ++ rd ++ shamt ++ funct`. -/
def rWord (op : BitVec 6) (rs rt rd : RegNum) (shamt : Shamt) (funct : BitVec 6) : Word :=
  op ++ rs ++ rt ++ rd ++ shamt ++ funct

/-- R43: `op ++ rs ++ rt ++ imm`. -/
def iWord (op : BitVec 6) (rs rt : RegNum) (imm : Imm) : Word :=
  op ++ rs ++ rt ++ imm

/-- The word of an instruction, by the codes of R49 and R50 and the must-be-zero fields of R51. -/
def encode : Instr → Word
  | .sll rd rt shamt => rWord 0 0 rt rd shamt 0
  | .srl rd rt shamt => rWord 0 0 rt rd shamt 2
  | .sra rd rt shamt => rWord 0 0 rt rd shamt 3
  | .add rd rs rt => rWord 0 rs rt rd 0 32
  | .sub rd rs rt => rWord 0 rs rt rd 0 34
  | .and rd rs rt => rWord 0 rs rt rd 0 36
  | .or rd rs rt => rWord 0 rs rt rd 0 37
  | .xor rd rs rt => rWord 0 rs rt rd 0 38
  | .nor rd rs rt => rWord 0 rs rt rd 0 39
  | .addi rt rs imm => iWord 8 rs rt imm
  | .andi rt rs imm => iWord 12 rs rt imm
  | .ori rt rs imm => iWord 13 rs rt imm
  | .lw rt rs imm => iWord 35 rs rt imm
  | .sw rt rs imm => iWord 43 rs rt imm

/-- The bytes of an instruction as the hardware stores them. -/
def encodeBytes (order : ByteOrder) (i : Instr) : List Byte :=
  [byteOfWord order (encode i) 0, byteOfWord order (encode i) 1,
   byteOfWord order (encode i) 2, byteOfWord order (encode i) 3]

/-- The instruction's mnemonic, as the spec spells it. -/
def mnemonic : Instr → String
  | .sll _ _ _ => "sll"
  | .srl _ _ _ => "srl"
  | .sra _ _ _ => "sra"
  | .add _ _ _ => "add"
  | .sub _ _ _ => "sub"
  | .and _ _ _ => "and"
  | .or _ _ _ => "or"
  | .xor _ _ _ => "xor"
  | .nor _ _ _ => "nor"
  | .addi _ _ _ => "addi"
  | .andi _ _ _ => "andi"
  | .ori _ _ _ => "ori"
  | .lw _ _ _ => "lw"
  | .sw _ _ _ => "sw"

/-! ### The match and mask table (R48) -/

/-- One row of the table of R48: a word `w` is the instruction when `w AND mask = value`. -/
structure OpcodeRow where
  name : String
  mask : Word
  value : Word
  deriving DecidableEq, Repr

/-- The fourteen rows of R48, in its order. -/
def opcodeRows : List OpcodeRow :=
  [⟨"sll", 0xFFE0003F#32, 0x00000000#32⟩, ⟨"srl", 0xFFE0003F#32, 0x00000002#32⟩,
   ⟨"sra", 0xFFE0003F#32, 0x00000003#32⟩, ⟨"add", 0xFC0007FF#32, 0x00000020#32⟩,
   ⟨"sub", 0xFC0007FF#32, 0x00000022#32⟩, ⟨"and", 0xFC0007FF#32, 0x00000024#32⟩,
   ⟨"or", 0xFC0007FF#32, 0x00000025#32⟩, ⟨"xor", 0xFC0007FF#32, 0x00000026#32⟩,
   ⟨"nor", 0xFC0007FF#32, 0x00000027#32⟩, ⟨"addi", 0xFC000000#32, 0x20000000#32⟩,
   ⟨"andi", 0xFC000000#32, 0x30000000#32⟩, ⟨"ori", 0xFC000000#32, 0x34000000#32⟩,
   ⟨"lw", 0xFC000000#32, 0x8C000000#32⟩, ⟨"sw", 0xFC000000#32, 0xAC000000#32⟩]

/-- A word has the bits a row of R48 fixes. -/
def rowMatches (row : OpcodeRow) (w : Word) : Bool :=
  w &&& row.mask == row.value

/-! ### The host's view of the opcode table -/

/-- The word whose low `nbits` bits are `w` (bit 0 the least significant bit of the one instruction word), the bits above
them zero. -/
def tableWord (nbits w : Nat) : Word :=
  BitVec.ofNat 32 (w % 2 ^ nbits)

/-- What the decoder reads from the bits of a table row. The word is laid out in bytes and read back in the same order, so
the choice of order does not show (R27). -/
def decodeTableWord (nbits w : Nat) : Option Instr :=
  let v := tableWord nbits w
  match decodeBytes .big [byteOfWord .big v 0, byteOfWord .big v 1, byteOfWord .big v 2, byteOfWord .big v 3] with
  | .ok (i, _) => some i
  | .error _ => none

end Sys2Proof
end

