-- ==== Sys2Proof/Machine/Regions.lean ====
section
/-!
DEFINITION. The address map the parameters give (spec/20_memory.md R24; 00_scope.md section 4).
-/

namespace Sys2Proof

/-- `ENTRY`, fixed to `TEXT_BASE` (D18). -/
def Params.entry (p : Params) : Word := p.textBase

/-- `TEXT_END = TEXT_BASE + 4*n` (R110), not reduced modulo 2^32 (log 14). -/
def Params.textEnd (p : Params) : Nat := p.textBase.toNat + 4 * p.program.length

/-- `TEXT_BASE <= a < TEXT_END`. -/
def Params.inText (p : Params) (a : Word) : Bool :=
  decide (p.textBase.toNat ≤ a.toNat) && decide (a.toNat < p.textEnd)

/-- The word with the address `4 * k` is in the region. -/
def DataRegion.covers (r : DataRegion) (k : Nat) : Bool :=
  decide (r.firstWord ≤ k) && decide (k < r.firstWord + r.words)

/-- The word that holds byte `a` is mapped: "word-aligned `a` with `DATA_MAPPED(a)`, and the three bytes after each" (R24). -/
def Params.dataMapped (p : Params) (a : Word) : Bool :=
  p.dataRegions.any (fun r => r.covers (a.toNat / 4))

/-- The three disjoint parts of the address space (R24). -/
inductive Region where
  | text
  | data
  | unmapped
  deriving DecidableEq, Repr

/-- Which part an address is in; the text is asked first, as in R30 and R31. -/
def Params.regionOf (p : Params) (a : Word) : Region :=
  if p.inText a then .text
  else if p.dataMapped a then .data
  else .unmapped

end Sys2Proof
end

