-- ==== Sys2Proof/Machine/State.lean ====
section
/-!
DEFINITION. The state of the machine (spec/10_state.md R22), the reasons a step stops (60_exceptions.md R92, R93), and the
state at which a run begins (R21, R110).
-/

namespace Sys2Proof.Machine

/-- Which of the two data accesses an address was used for (R93). -/
inductive AccessKind where
  | load
  | store
  deriving DecidableEq, Repr

/-- The faults, the complete list of R92 with the `info` each records. Each is SAFE: the run stops where a real MIPS takes
an exception the source does not describe (log 16, 17). -/
inductive Fault where
  /-- `add`, `sub`, `addi`: the exact signed result lies outside 32 bits; the address and the word of the instruction (R63).
  Safe. -/
  | integerOverflow (pc : Word) (w : Word)
  /-- `lw`: the effective address is no multiple of 4 (R28). Safe. -/
  | addressErrorLoad (ea : Word)
  /-- `sw`: the effective address is no multiple of 4 (R28). Safe. -/
  | addressErrorStore (ea : Word)
  /-- fetch: the pc is no multiple of 4 (R29). Safe. -/
  | addressErrorFetch (pc : Word)
  deriving DecidableEq, Repr

/-- The refusals, the complete list of R93 with their `info`, and the host's name for an instruction without a meaning. -/
inductive Refusal where
  /-- decode: the word is none of the fourteen instructions (R52, R94). Safe. -/
  | reservedInstruction (w : Word)
  /-- `lw`, `sw`: the address is aligned and lies in the program text (R37). Safe. -/
  | textAccess (ea : Word) (kind : AccessKind)
  /-- `lw`, `sw`: the address is aligned, not in the text, and no data word is mapped there (R24). Safe. -/
  | unmappedAccess (ea : Word) (kind : AccessKind)
  /-- fetch: the pc lies outside the text (R36). Safe. -/
  | fetchOutsideText (pc : Word)
  /-- exec, for an instruction of the opcode table without a meaning: no arm of this model answers so. Safe. -/
  | notModelled (mnemonic : String)
  deriving DecidableEq, Repr

/-- The run status (R19). -/
inductive Status where
  | running
  | final
  | faulted (f : Fault)
  | refused (q : Refusal)
  deriving DecidableEq, Repr

/-- Data memory: the bytes that do not read as `Config.unlistedByte`, by address, in rising order (`Memory.wf`). -/
abbrev Memory := List Host.Cell

/-- The state (R22): registers 1 to 31 (register 0 is a constant, R11: it has no storage), the program counter, data
memory, the run status; and with them the parameters of the run, which no step changes (log 3). -/
structure State where
  params : Params
  regs : Vector Word 31
  pc : Word
  mem : Memory
  status : Status
  deriving DecidableEq, Repr

/-- The launch state of R110 for the parameters, `REGS0` and `MEM0`. -/
def State.launch (p : Params) (regs0 : Vector Word 31) (mem0 : Memory) : State where
  params := p
  regs := regs0
  pc := p.textBase
  mem := mem0
  status := .running

/-- The machine right after reset. The spec has no reset (R111); this is the launch of R110 with the values Config names. -/
def State.reset : State :=
  State.launch Config.resetParams (Vector.replicate 31 Config.resetRegister) []

end Sys2Proof.Machine
end

