-- ==== Sys2Proof/Machine/Ops.lean ====
section
/-!
DEFINITION. The named operations over outcomes, registers and memory (spec/00_scope.md section 5.2; 10_state.md R11;
20_memory.md R25 to R31), and stopping: `raise` and `refuse` (60_exceptions.md R90, R91, R97).
-/

namespace Sys2Proof.Machine

/-! ### Stopping -/

/-- What an operation inside an instruction answers: a value to go on with, a fault, or a refusal. -/
abbrev Answer (α : Type) := Host.Outcome α Fault Refusal

/-- Go on with the value, or stop as the operation stopped. -/
def andThen {α β : Type} (o : Answer α) (k : α → Answer β) : Answer β :=
  match o with
  | .next a => k a
  | .fault f => .fault f
  | .refused q => .refused q

/-- `raise F(info)` (R90). There is no trap entry (R97): nothing is saved, no mode changes, control goes nowhere; the
instruction stops with the fault, and `State.after` says what state that leaves. -/
def raise {α : Type} (f : Fault) : Answer α := .fault f

/-- `refuse Q(info)` (R91). -/
def refuse {α : Type} (q : Refusal) : Answer α := .refused q

/-- The state a step leaves: the next state; or, after a fault or a refusal, the state the instruction started in with
nothing changed but the run status (R90, R91). -/
def State.after (s : State) (o : Answer State) : State :=
  match o with
  | .next t => t
  | .fault f => { s with status := .faulted f }
  | .refused q => { s with status := .refused q }

/-! ### General registers -/

/-- `x[r]`: register 0 reads as zero (R11). -/
def State.readReg (s : State) (r : RegNum) : Word :=
  if h : r = 0#5 then 0#32
  else s.regs[r.toNat - 1]'(by
    have : r.toNat ≠ 0 := fun hr => h (BitVec.eq_of_toNat_eq (by simpa using hr))
    have := r.isLt
    omega)

/-- `x[r] <- v`: a write to register 0 is discarded (R11). -/
def State.writeReg (s : State) (r : RegNum) (v : Word) : State :=
  if h : r = 0#5 then s
  else { s with regs := s.regs.set (r.toNat - 1) v (by
    have : r.toNat ≠ 0 := fun hr => h (BitVec.eq_of_toNat_eq (by simpa using hr))
    have := r.isLt
    omega) }

/-! ### Program counter -/

/-- `pc <- pc + 4`, modulo 2^32 (R15). -/
def State.advance (s : State) : State := { s with pc := s.pc + 4#32 }

/-- The end of an instruction that completes and writes a register: the write, then `pc <- pc + 4` (R13, R15). -/
def writeAndAdvance (s : State) (rd : RegNum) (v : Word) : Answer State :=
  .next (s.writeReg rd v).advance

/-! ### Memory as bytes -/

/-- The canonical form: addresses strictly rising, no entry equal to what an unlisted address reads as. -/
abbrev Memory.wf (m : Memory) : Prop :=
  m.Pairwise (fun c d => c.1 < d.1) ∧ ∀ c ∈ m, c.2 ≠ Config.unlistedByte

/-- The byte at an address. -/
def Memory.read : Memory → Nat → Byte
  | [], _ => Config.unlistedByte
  | c :: m, a => if c.1 = a then c.2 else Memory.read m a

/-- The cell to list for a byte: none for the byte an unlisted address reads as. -/
def Memory.cell (a : Nat) (b : Byte) : Memory :=
  if b = Config.unlistedByte then [] else [(a, b)]

/-- Writing one byte, keeping the canonical form. -/
def Memory.write : Memory → Nat → Byte → Memory
  | [], a, b => Memory.cell a b
  | c :: m, a, b =>
    if a < c.1 then Memory.cell a b ++ c :: m
    else if a = c.1 then Memory.cell a b ++ m
    else c :: Memory.write m a b

/-- The word at four consecutive byte addresses (R25, R26). -/
def Memory.readWord (order : ByteOrder) (m : Memory) (a : Nat) : Word :=
  wordOfBytes order (m.read a) (m.read (a + 1)) (m.read (a + 2)) (m.read (a + 3))

/-- Storing a word at four consecutive byte addresses (R25, R26). -/
def Memory.writeWord (order : ByteOrder) (m : Memory) (a : Nat) (v : Word) : Memory :=
  (((m.write a (byteOfWord order v 0)).write (a + 1) (byteOfWord order v 1)).write
    (a + 2) (byteOfWord order v 2)).write (a + 3) (byteOfWord order v 3)

/-- `Mem[a]` of R22, for a word-aligned `a`. -/
def State.readWord (s : State) (a : Word) : Word :=
  Memory.readWord s.params.byteOrder s.mem a.toNat

/-- `Mem[a] <- v` of R31, for a word-aligned `a`. -/
def State.writeWord (s : State) (a v : Word) : State :=
  { s with mem := Memory.writeWord s.params.byteOrder s.mem a.toNat v }

/-! ### The access primitives -/

/-- `addr mod 4 = 0`. -/
def aligned (a : Word) : Bool := a.toNat % 4 == 0

/-- The fault of a misaligned access (R28). -/
def addressError (kind : AccessKind) (a : Word) : Fault :=
  match kind with
  | .load => .addressErrorLoad a
  | .store => .addressErrorStore a

/-- The checks on an effective address, in their order: alignment, then text, then mapping (R30, R31, R73). -/
def checkAccess (s : State) (kind : AccessKind) (a : Word) : Answer Unit :=
  if aligned a = false then raise (addressError kind a)
  else
    match s.params.regionOf a with
    | .text => refuse (.textAccess a kind)
    | .unmapped => refuse (.unmappedAccess a kind)
    | .data => .next ()

/-- `MemRead(addr, 4)` (R30). -/
def memRead (s : State) (a : Word) : Answer Word :=
  andThen (checkAccess s .load a) (fun _ => .next (s.readWord a))

/-- `MemWrite(addr, 4, v)` (R31). -/
def memWrite (s : State) (a v : Word) : Answer State :=
  andThen (checkAccess s .store a) (fun _ => .next (s.writeWord a v))

end Sys2Proof.Machine
end

