-- ==== Sys2Proof/Machine/Flags.lean ====
section
/-!
DEFINITION. There are no flags (spec/10_state.md R16); the one condition arithmetic computes is signed overflow, which is
reported as a fault (40_arithmetic.md R63, decision D5, log 16).
-/

namespace Sys2Proof.Machine

/-- An exact result is representable: it lies in `-2^31 .. 2^31 - 1`. -/
def fitsSigned (n : Int) : Bool := decide (-2147483648 ≤ n) && decide (n ≤ 2147483647)

/-- `add` and `addi` overflow: the exact sum of the signed readings does not fit (R63). -/
def addOverflows (a b : Word) : Bool := !fitsSigned (a.toInt + b.toInt)

/-- `sub` overflows: the exact difference of the signed readings does not fit (R63). -/
def subOverflows (a b : Word) : Bool := !fitsSigned (a.toInt - b.toInt)

/-- The end of an arithmetic instruction: `IntegerOverflow(pc, w)` with `w` the instruction's own word, the destination not
written and the pc not advanced (R63); else the result. The test is made whatever the destination is (R65). -/
def writeUnlessOverflow (overflows : Bool) (i : Instr) (s : State) (rd : RegNum) (v : Word) : Answer State :=
  if overflows then raise (.integerOverflow s.pc (encode i))
  else writeAndAdvance s rd v

end Sys2Proof.Machine
end

