-- ==== Sys2Proof/Machine/Operands.lean ====
section
/-!
DEFINITION. The operand forms: the sign-extended and the zero-extended constant (spec/30_encoding.md R45, R46), the shift
count (R47), and the one addressing mode (41_load_store.md R70).
-/

namespace Sys2Proof.Machine

/-- `sext_32(imm)` (R45): for `addi`, `lw`, `sw`. For the load/store offset this is the spec's decision D10 (log 18). -/
def sext32 (imm : Imm) : Word := imm.signExtend 32

/-- `zext_32(imm)` (R46): for `andi`, `ori`. -/
def zext32 (imm : Imm) : Word := imm.zeroExtend 32

/-- The unsigned count of a shift (R47). -/
def shiftCount (shamt : Shamt) : Nat := shamt.toNat

/-- `EA <- (x[rs] + sext_32(imm)) mod 2^32` (R70). -/
def effectiveAddress (s : State) (rs : RegNum) (imm : Imm) : Word :=
  s.readReg rs + sext32 imm

end Sys2Proof.Machine
end

