-- ==== Sys2Proof/Machine/Arithmetic.lean ====
section
/-!
DEFINITION. `add`, `sub`, `addi` (spec/40_arithmetic.md).
-/

namespace Sys2Proof.Machine

/-- R60. -/
def execAdd (rd rs rt : RegNum) (s : State) : Answer State :=
  writeUnlessOverflow (addOverflows (s.readReg rs) (s.readReg rt)) (.add rd rs rt) s rd
    (s.readReg rs + s.readReg rt)

/-- R61: the first operand minus the second. -/
def execSub (rd rs rt : RegNum) (s : State) : Answer State :=
  writeUnlessOverflow (subOverflows (s.readReg rs) (s.readReg rt)) (.sub rd rs rt) s rd
    (s.readReg rs - s.readReg rt)

/-- R62: the destination is `rt`, the constant is sign-extended. -/
def execAddi (rt rs : RegNum) (imm : Imm) (s : State) : Answer State :=
  writeUnlessOverflow (addOverflows (s.readReg rs) (sext32 imm)) (.addi rt rs imm) s rt
    (s.readReg rs + sext32 imm)

end Sys2Proof.Machine
end

