-- ==== Sys2Proof/Machine/LoadStore.lean ====
section
/-!
DEFINITION. `lw` and `sw` (spec/41_load_store.md). The base register is not modified (R70).
-/

namespace Sys2Proof.Machine

/-- R71: the read and its checks are made whatever `rt` is, then `x[rt] <- v`. -/
def execLw (rt rs : RegNum) (imm : Imm) (s : State) : Answer State :=
  andThen (memRead s (effectiveAddress s rs imm)) (fun v => writeAndAdvance s rt v)

/-- R72. -/
def execSw (rt rs : RegNum) (imm : Imm) (s : State) : Answer State :=
  andThen (memWrite s (effectiveAddress s rs imm) (s.readReg rt)) (fun t => .next t.advance)

end Sys2Proof.Machine
end

