-- ==== Sys2Proof/Machine/Logical.lean ====
section
/-!
DEFINITION. `and`, `or`, `xor`, `nor`, `andi`, `ori` (spec/42_logical.md). None can fault (R82).
-/

namespace Sys2Proof.Machine

/-- R75. -/
def execAnd (rd rs rt : RegNum) (s : State) : Answer State :=
  writeAndAdvance s rd (s.readReg rs &&& s.readReg rt)

/-- R76. -/
def execOr (rd rs rt : RegNum) (s : State) : Answer State :=
  writeAndAdvance s rd (s.readReg rs ||| s.readReg rt)

/-- R77. -/
def execXor (rd rs rt : RegNum) (s : State) : Answer State :=
  writeAndAdvance s rd (s.readReg rs ^^^ s.readReg rt)

/-- R78. -/
def execNor (rd rs rt : RegNum) (s : State) : Answer State :=
  writeAndAdvance s rd (~~~(s.readReg rs ||| s.readReg rt))

/-- R79: the constant is zero-extended, the destination is `rt`. -/
def execAndi (rt rs : RegNum) (imm : Imm) (s : State) : Answer State :=
  writeAndAdvance s rt (s.readReg rs &&& zext32 imm)

/-- R80: the constant is zero-extended, the destination is `rt`. -/
def execOri (rt rs : RegNum) (imm : Imm) (s : State) : Answer State :=
  writeAndAdvance s rt (s.readReg rs ||| zext32 imm)

end Sys2Proof.Machine
end

