-- ==== Sys2Proof/Machine/Shift.lean ====
section
/-!
DEFINITION. `sll`, `srl`, `sra` (spec/43_shift.md). None can fault (R88).
-/

namespace Sys2Proof.Machine

/-- R85: `x[rd] <- (x[rt] << shamt) mod 2^32`. -/
def execSll (rd rt : RegNum) (shamt : Shamt) (s : State) : Answer State :=
  writeAndAdvance s rd (s.readReg rt <<< shiftCount shamt)

/-- R86: `x[rd] <- x[rt] >>u shamt`. -/
def execSrl (rd rt : RegNum) (shamt : Shamt) (s : State) : Answer State :=
  writeAndAdvance s rd (s.readReg rt >>> shiftCount shamt)

/-- R87: `x[rd] <- x[rt] >>s shamt`, filling with bit 31 (and not division truncating toward zero: C9). -/
def execSra (rd rt : RegNum) (shamt : Shamt) (s : State) : Answer State :=
  writeAndAdvance s rd ((s.readReg rt).sshiftRight (shiftCount shamt))

end Sys2Proof.Machine
end

