-- ==== Sys2Proof/Machine/Fetch.lean ====
section
/-!
DEFINITION. The parts of the step around executing an instruction (spec/70_reset_and_hazards.md R112): the end of the run,
fetching, decoding, and what a state that does not run answers (10_state.md R19).
-/

namespace Sys2Proof.Machine

/-- `pc = TEXT_END` (R113). -/
def State.atEnd (s : State) : Bool := s.pc.toNat == s.params.textEnd

/-- `status <- final` (R113). -/
def State.finish (s : State) : State := { s with status := .final }

/-- The position in `PROGRAM` that the pc names (R36). -/
def State.fetchIndex (s : State) : Nat := (s.pc.toNat - s.params.textBase.toNat) / 4

/-- Fetch (R36, R112): `AddressErrorFetch` when the pc is misaligned, `FetchOutsideText` when it is not in the text, else
the word of `PROGRAM`. It never reads `Mem`. -/
def fetch (s : State) : Answer Word :=
  if aligned s.pc = false then raise (.addressErrorFetch s.pc)
  else if s.params.inText s.pc = false then refuse (.fetchOutsideText s.pc)
  else
    match s.params.program[s.fetchIndex]? with
    | some w => .next w
    | none => refuse (.fetchOutsideText s.pc)

/-- Decode (R48): a word that is none of the fourteen instructions is refused, whatever makes it so (R52, R94). -/
def decodeFetched (w : Word) : Answer Instr :=
  match decode w with
  | .ok i => .next i
  | .error _ => refuse (.reservedInstruction w)

/-- The instruction the pc names. -/
def fetchInstr (s : State) : Answer Instr :=
  andThen (fetch s) decodeFetched

/-- What a state that is not running answers: a faulted or refused run stays as it is and answers its stop again (R19: "no
step clears them"); a final one stays as it is (R113: "nothing further happens"; that it answers itself is a DESIGN CHOICE,
log 2). -/
def answerOfStatus (s : State) : Answer State :=
  match s.status with
  | .running | .final => .next s
  | .faulted f => .fault f
  | .refused q => .refused q

end Sys2Proof.Machine
end

