-- ==== Sys2Proof/Machine/Step.lean ====
section
/-!
DEFINITION. One step (spec/70_reset_and_hazards.md R112), and the host's placing of one instruction where the step fetches.
-/

namespace Sys2Proof.Machine

/-- R112. The advance of the pc stands in each instruction's meaning (R15). -/
def step (s : State) : Host.Outcome State Fault Refusal :=
  if s.status = .running then
    if s.atEnd then .next s.finish
    else andThen (fetchInstr s) (fun i => exec i s)
  else answerOfStatus s

/-- `s` with the instruction word in the program text at the pc (log 10). With the pc aligned and in the text, or at its
end, only that word of `PROGRAM` is put there; otherwise the text becomes the one word, at the pc rounded down to a multiple
of 4. The state runs. -/
def State.withFetchWord (s : State) (nbits w : Nat) : State :=
  if aligned s.pc && (s.params.inText s.pc || s.atEnd) then
    { s with
      status := .running
      params := { s.params with
        program := s.params.program.take s.fetchIndex ++ tableWord nbits w :: s.params.program.drop (s.fetchIndex + 1) } }
  else
    { s with
      status := .running
      pc := s.pc &&& ~~~3#32
      params := { s.params with program := [tableWord nbits w], textBase := s.pc &&& ~~~3#32 } }

end Sys2Proof.Machine
end

