-- ==== Sys2Proof/WellFormed.lean ====
section
/-!
DEFINITION. The checks on what the machine is given: the launch parameters (spec/70_reset_and_hazards.md R110), an instruction
word (30_encoding.md R51, R52), and the constants of an assembly line (R56 to R58). A term of `Instr` has nothing to check:
each of its operands has exactly its field's width.
-/

namespace Sys2Proof

/-! ### Launch parameters (R110) -/

/-- `TEXT_BASE mod 4 = 0`. -/
def Params.textAligned (p : Params) : Bool := p.textBase.toNat % 4 == 0

/-- `TEXT_BASE + 4*n < 2^32`. -/
def Params.textFits (p : Params) : Bool := decide (p.textEnd < 2 ^ 32)

/-- No word of the region lies in the text; a region without words, or an empty text, has none. -/
def Params.regionOffText (p : Params) (r : DataRegion) : Bool :=
  p.program.isEmpty || r.words == 0 ||
    decide (4 * (r.firstWord + r.words) ≤ p.textBase.toNat) || decide (p.textEnd ≤ 4 * r.firstWord)

/-- The constraints of R110; that mapped addresses are multiples of 4 is built into `DataRegion`. -/
def Params.wf (p : Params) : Bool :=
  p.textAligned && p.textFits && p.dataRegions.all p.regionOffText

/-! ### Instruction words (R51, R52) -/

/-- The word is one of the fourteen instructions, by the match and mask table of R48. -/
def wellFormedWord (w : Word) : Bool := opcodeRows.any (fun row => rowMatches row w)

/-! ### Constants of an assembly line (R56, R57, R58) -/

/-- `-32768..32767`: the constant of `addi`, the offset of `lw` and `sw`. -/
def signedConstant (c : Int) : Bool := decide (-32768 ≤ c) && decide (c ≤ 32767)

/-- `0..65535`: the constant of `andi` and `ori`. -/
def unsignedConstant (c : Int) : Bool := decide (0 ≤ c) && decide (c ≤ 65535)

/-- `0..31`: the count of a shift. -/
def shiftConstant (c : Int) : Bool := decide (0 ≤ c) && decide (c ≤ 31)

end Sys2Proof
end

