-- ==== Sys2Proof/Machine/Assembly.lean ====
section
/-!
DEFINITION. Assembly lines: the names of the registers (spec/10_state.md R12) and the operand forms R55 to R58 of
30_encoding.md. A line is taken apart already (log 27): a mnemonic and operands, its commas and parentheses not kept.
There are no pseudo-instructions (R59), and a constant out of range is rejected (R56, U14).
-/

namespace Sys2Proof

/-- The spellings of each register, the first the one `regName` uses: the names of R12, then `$` and "r" before the
number. The names of registers 1 to 7 and 26 to 31 are the spec's decision D21 (UNVERIFIED, log 25). -/
def regSpellings : List (List String) :=
   [["$zero", "$0", "r0"], ["$at", "$1", "r1"],
    ["$v0", "$2", "r2"], ["$v1", "$3", "r3"],
    ["$a0", "$4", "r4"], ["$a1", "$5", "r5"],
    ["$a2", "$6", "r6"], ["$a3", "$7", "r7"]] ++
   [["$t0", "$8", "r8"], ["$t1", "$9", "r9"],
    ["$t2", "$10", "r10"], ["$t3", "$11", "r11"],
    ["$t4", "$12", "r12"], ["$t5", "$13", "r13"],
    ["$t6", "$14", "r14"], ["$t7", "$15", "r15"]] ++
   [["$s0", "$16", "r16"], ["$s1", "$17", "r17"],
    ["$s2", "$18", "r18"], ["$s3", "$19", "r19"],
    ["$s4", "$20", "r20"], ["$s5", "$21", "r21"],
    ["$s6", "$22", "r22"], ["$s7", "$23", "r23"]] ++
   [["$t8", "$24", "r24"], ["$t9", "$25", "r25"],
    ["$k0", "$26", "r26"], ["$k1", "$27", "r27"],
    ["$gp", "$28", "r28"], ["$sp", "$29", "r29"],
    ["$fp", "$30", "r30", "$s8"], ["$ra", "$31", "r31"]]

/-- The name of a register (R12). -/
def regName (r : RegNum) : String := ((regSpellings.getD r.toNat []).head?).getD ""

/-- The register a name spells (R12: "a name is only a spelling of a number"). -/
def regOfName (n : String) : Option RegNum :=
  (regSpellings.findIdx? (fun names => names.contains n)).map (BitVec.ofNat 5)

/-- An operand of an assembly line: a register, a constant, or `offset(base)`. -/
inductive AsmOperand where
  | reg (name : String)
  | const (c : Int)
  | mem (offset : Int) (base : String)
  deriving DecidableEq, Repr

/-- A line: a mnemonic and its operands. -/
structure AsmLine where
  name : String
  operands : List AsmOperand
  deriving DecidableEq, Repr

/-- Why a line is rejected. -/
inductive AsmError where
  /-- none of the fourteen mnemonics (R59: no pseudo-instruction either) -/
  | unknownMnemonic (name : String)
  /-- a mnemonic with operands of another form than its own (R55 to R58) -/
  | wrongOperands (name : String)
  /-- no register has this name -/
  | unknownRegister (name : String)
  /-- the constant does not lie in the range of its form (R56, R57, R58) -/
  | constantOutOfRange (c : Int)
  deriving DecidableEq, Repr

/-- A register operand. -/
def asmReg (n : String) : Except AsmError RegNum :=
  match regOfName n with
  | some r => .ok r
  | none => .error (.unknownRegister n)

/-- A constant operand that must pass `inRange`, encoded in `width` bits (two's complement for a negative one, R56). -/
def asmConst (inRange : Int → Bool) (width : Nat) (c : Int) : Except AsmError (BitVec width) :=
  if inRange c then .ok (BitVec.ofInt width c) else .error (.constantOutOfRange c)

/-- `mnemonic rd, rs, rt` (R55). -/
def asmThreeReg (name : String) (mk : RegNum → RegNum → RegNum → Instr) : List AsmOperand → Except AsmError Instr
  | [.reg d, .reg a, .reg b] => do return mk (← asmReg d) (← asmReg a) (← asmReg b)
  | _ => .error (.wrongOperands name)

/-- `mnemonic rt, rs, const` (R56). -/
def asmImmediate (name : String) (inRange : Int → Bool) (mk : RegNum → RegNum → Imm → Instr) :
    List AsmOperand → Except AsmError Instr
  | [.reg t, .reg a, .const c] => do return mk (← asmReg t) (← asmReg a) (← asmConst inRange 16 c)
  | _ => .error (.wrongOperands name)

/-- `mnemonic rt, offset(rs)` (R57). -/
def asmMemory (name : String) (mk : RegNum → RegNum → Imm → Instr) : List AsmOperand → Except AsmError Instr
  | [.reg t, .mem c a] => do return mk (← asmReg t) (← asmReg a) (← asmConst signedConstant 16 c)
  | _ => .error (.wrongOperands name)

/-- `mnemonic rd, rt, shamt` (R58). -/
def asmShift (name : String) (mk : RegNum → RegNum → Shamt → Instr) : List AsmOperand → Except AsmError Instr
  | [.reg d, .reg a, .const c] => do return mk (← asmReg d) (← asmReg a) (← asmConst shiftConstant 5 c)
  | _ => .error (.wrongOperands name)

/-- The instruction a line stands for, or why it is rejected. -/
def assemble (l : AsmLine) : Except AsmError Instr :=
  if l.name = "sll" then asmShift l.name .sll l.operands
  else if l.name = "srl" then asmShift l.name .srl l.operands
  else if l.name = "sra" then asmShift l.name .sra l.operands
  else if l.name = "add" then asmThreeReg l.name .add l.operands
  else if l.name = "sub" then asmThreeReg l.name .sub l.operands
  else if l.name = "and" then asmThreeReg l.name .and l.operands
  else if l.name = "or" then asmThreeReg l.name .or l.operands
  else if l.name = "xor" then asmThreeReg l.name .xor l.operands
  else if l.name = "nor" then asmThreeReg l.name .nor l.operands
  else if l.name = "addi" then asmImmediate l.name signedConstant .addi l.operands
  else if l.name = "andi" then asmImmediate l.name unsignedConstant .andi l.operands
  else if l.name = "ori" then asmImmediate l.name unsignedConstant .ori l.operands
  else if l.name = "lw" then asmMemory l.name .lw l.operands
  else if l.name = "sw" then asmMemory l.name .sw l.operands
  else .error (.unknownMnemonic l.name)

/-- The operands of an instruction, as its line writes them: a constant read signed where the instruction reads it signed. -/
def asmOperands : Instr → List AsmOperand
  | .sll rd rt shamt | .srl rd rt shamt | .sra rd rt shamt =>
    [.reg (regName rd), .reg (regName rt), .const shamt.toNat]
  | .add rd rs rt | .sub rd rs rt | .and rd rs rt | .or rd rs rt | .xor rd rs rt | .nor rd rs rt =>
    [.reg (regName rd), .reg (regName rs), .reg (regName rt)]
  | .addi rt rs imm => [.reg (regName rt), .reg (regName rs), .const imm.toInt]
  | .andi rt rs imm | .ori rt rs imm => [.reg (regName rt), .reg (regName rs), .const imm.toNat]
  | .lw rt rs imm | .sw rt rs imm => [.reg (regName rt), .mem imm.toInt (regName rs)]

/-- The line of an instruction. -/
def disassemble (i : Instr) : AsmLine := ⟨mnemonic i, asmOperands i⟩

/-- An operand as text. -/
def AsmOperand.text : AsmOperand → String
  | .reg n => n
  | .const c => toString c
  | .mem c n => toString c ++ "(" ++ n ++ ")"

/-- A line as text: the mnemonic, then the operands "separated by commas" (30_encoding.md section 5). -/
def AsmLine.text (l : AsmLine) : String :=
  l.name ++ " " ++ String.intercalate ", " (l.operands.map AsmOperand.text)

end Sys2Proof
end

