-- ==== Sys2Proof/Machine/HostView.lean ====
section
/-!
DEFINITION. What the host reads after the end of a run (spec/70_reset_and_hazards.md R119): memory as bytes, the one place where
`BYTE_ORDER` shows (20_memory.md R26, R27). The host reads registers with `State.readReg` and words with `State.readWord`.
-/

namespace Sys2Proof.Machine

/-- The byte at an address: of an instruction word in the text, of data memory where a word is mapped, none elsewhere. -/
def State.hostByte (s : State) (a : Word) : Option Byte :=
  match s.params.regionOf a with
  | .text =>
    (s.params.program[(a.toNat - s.params.textBase.toNat) / 4]?).map
      (fun w => byteOfWord s.params.byteOrder w ((a.toNat - s.params.textBase.toNat) % 4))
  | .data => some (s.mem.read a.toNat)
  | .unmapped => none

end Sys2Proof.Machine
end

