-- ==== Sys2Proof/Machine/Run.lean ====
section
/-!
DEFINITION. Runs: the step on the state of spec/10_state.md R22, run status included (`tick`), and several steps.
-/

namespace Sys2Proof.Machine

/-- One step of the tuple `(x[1..31], pc, Mem, status)`: where `step` stops with a fault or a refusal, the run status records it
and nothing else changes (R90, R91). -/
def tick (s : State) : State := s.after (step s)

/-- `k` ticks. -/
def ticks : Nat → State → State
  | 0, s => s
  | k + 1, s => ticks k (tick s)

/-- `k` steps of the host's core, stopping at the first fault or refusal. -/
def runSteps (k : Nat) (s : State) : Host.Outcome State Fault Refusal :=
  Host.Core.run Sys2Proof.core k s

end Sys2Proof.Machine
end

