-- ==== Sys2Proof/Safety.lean ====
section
/-!
DEFINITION. The terms claims are stated in: the invariant of every run, launches (spec/70_reset_and_hazards.md R110), the end of a
run (R113), what an instruction changes, and which registers it reads and writes (10_state.md R13).
-/

namespace Sys2Proof.Machine

/-! ### Invariant and launch -/

/-- Every listed byte lies in a mapped data word of the 2^32-byte space (R18, R23, R24). -/
abbrev State.memMapped (s : State) : Prop :=
  ∀ c ∈ s.mem, c.1 < 2 ^ 32 ∧ s.params.regionOf (BitVec.ofNat 32 c.1) = .data

/-- What every state of a run has: parameters as R110 asks, memory in canonical form and only where data is mapped, the pc a
multiple of 4 within `[TEXT_BASE, TEXT_END]` (R15, R36), and at its end when the run is final (R113). -/
abbrev State.inv (s : State) : Prop :=
  s.params.wf = true ∧ s.mem.wf ∧ s.memMapped ∧ aligned s.pc = true ∧
    s.params.textBase.toNat ≤ s.pc.toNat ∧ s.pc.toNat ≤ s.params.textEnd ∧
    (s.status = .final → s.pc.toNat = s.params.textEnd)

/-- The state is a launch of R110: any parameters that meet its constraints, any registers, any data memory. -/
def State.isLaunch (s : State) : Prop :=
  ∃ p regs0 mem0, p.wf = true ∧ mem0.wf ∧ s = State.launch p regs0 mem0 ∧ s.memMapped

/-- How many instructions lie from the pc to the end of the text (R121). -/
def State.remaining (s : State) : Nat := (s.params.textEnd - s.pc.toNat) / 4

/-- The run from `s` ends, and in `t` (R113: `final` is the only status that satisfies a postcondition). -/
def endsFinal (s t : State) : Prop :=
  ∃ k, runSteps k s = .next t ∧ t.status = .final

/-! ### What an instruction changes -/

/-- From `s` to `t` an instruction completed that wrote `v` to register `rd` and nothing else: every other register, every
byte of memory, the parameters and the status as before, the pc 4 further; a write to register 0 discarded (R11, R15). -/
def wroteRegister (s t : State) (rd : RegNum) (v : Word) : Prop :=
  (∀ r, t.readReg r = if r = 0#5 then 0#32 else if r = rd then v else s.readReg r) ∧
    (∀ a, t.mem.read a = s.mem.read a) ∧ t.mem = s.mem ∧
    t.pc = s.pc + 4#32 ∧ t.params = s.params ∧ t.status = s.status

/-- From `s` to `t` an instruction completed that stored `v` at the word address `ea` and changed nothing else: the four bytes
at `ea` are those of `v` in the byte order, every other byte and every register as before (R25, R26, R31). -/
def storedWord (s t : State) (ea v : Word) : Prop :=
  t.readWord ea = v ∧
    (∀ k, k < 4 → t.mem.read (ea.toNat + k) = byteOfWord s.params.byteOrder v k) ∧
    (∀ a, (a < ea.toNat ∨ ea.toNat + 4 ≤ a) → t.mem.read a = s.mem.read a) ∧
    (∀ r, t.readReg r = s.readReg r) ∧
    t.pc = s.pc + 4#32 ∧ t.params = s.params ∧ t.status = s.status

/-! ### Registers an instruction names (R13) -/

/-- The registers R13 lists as read. -/
def regsRead : Instr → List RegNum
  | .sll _ rt _ | .srl _ rt _ | .sra _ rt _ => [rt]
  | .add _ rs rt | .sub _ rs rt | .and _ rs rt | .or _ rs rt | .xor _ rs rt | .nor _ rs rt => [rs, rt]
  | .addi _ rs _ | .andi _ rs _ | .ori _ rs _ | .lw _ rs _ => [rs]
  | .sw rt rs _ => [rs, rt]

/-- The register R13 lists as written; `sw` writes none. -/
def regWritten : Instr → Option RegNum
  | .sll rd _ _ | .srl rd _ _ | .sra rd _ _ => some rd
  | .add rd _ _ | .sub rd _ _ | .and rd _ _ | .or rd _ _ | .xor rd _ _ | .nor rd _ _ => some rd
  | .addi rt _ _ | .andi rt _ _ | .ori rt _ _ | .lw rt _ _ => some rt
  | .sw _ _ _ => none

/-- The same instruction with another destination register (`sw` has none, and stays as it is). -/
def withDestination (d : RegNum) : Instr → Instr
  | .sll _ rt h => .sll d rt h
  | .srl _ rt h => .srl d rt h
  | .sra _ rt h => .sra d rt h
  | .add _ rs rt => .add d rs rt
  | .sub _ rs rt => .sub d rs rt
  | .and _ rs rt => .and d rs rt
  | .or _ rs rt => .or d rs rt
  | .xor _ rs rt => .xor d rs rt
  | .nor _ rs rt => .nor d rs rt
  | .addi _ rs imm => .addi d rs imm
  | .andi _ rs imm => .andi d rs imm
  | .ori _ rs imm => .ori d rs imm
  | .lw _ rs imm => .lw d rs imm
  | .sw rt rs imm => .sw rt rs imm

/-! ### Byte order (R27) -/

/-- Two states that hold the same words, and may differ in `BYTE_ORDER` and so in the bytes those words are held in. -/
def sameWords (s t : State) : Prop :=
  t.params = { s.params with byteOrder := t.params.byteOrder } ∧ t.regs = s.regs ∧ t.pc = s.pc ∧
    t.status = s.status ∧ ∀ a, aligned a = true → t.readWord a = s.readWord a

/-- Two outcomes that are the same but for the byte order of the states they answer. -/
def sameWordsOutcome (o p : Host.Outcome State Fault Refusal) : Prop :=
  match o, p with
  | .next s, .next t => sameWords s t
  | .fault f, .fault g => f = g
  | .refused q, .refused r => q = r
  | _, _ => False

end Sys2Proof.Machine
end

