-- ==== Sys2Proof/Certificates/Slice0/Obligations.lean ====
section
/-!
DEFINITION. The statements for the provers. Each names the rule or section of spec/ it formalises; OBLIGATIONS.json lists them.
-/

open Sys2Proof Sys2Proof.Machine

/-! ### Encoding (30_encoding.md) -/

/-- Section 3: no bit of an instruction's word is dropped by decoding, whatever its operands. -/
def Obligations.DecodeOfEncode : Prop :=
  ∀ i : Instr, decode (encode i) = .ok i

/-- Section 3: the word of a decoded instruction is that instruction's one word; no bit of it is ignored. -/
def Obligations.EncodeOfDecode : Prop :=
  ∀ (w : Word) (i : Instr), decode w = .ok i → encode i = w

/-- Section 3: the decoder and the match and mask table admit the same words, under the same names. -/
def Obligations.DecodeAgreesWithMatchTable : Prop :=
  ∀ w : Word,
    (∀ i, decode w = .ok i → ∃ row ∈ opcodeRows, row.name = mnemonic i ∧ rowMatches row w = true) ∧
    (∀ row ∈ opcodeRows, rowMatches row w = true → ∃ i, decode w = .ok i ∧ mnemonic i = row.name)

/-- Section 3: "the 14 patterns are pairwise disjoint". -/
def Obligations.MatchPatternsDisjoint : Prop :=
  ∀ (w : Word), ∀ r ∈ opcodeRows, ∀ q ∈ opcodeRows, rowMatches r w = true → rowMatches q w = true → r = q

/-- R41: the R format's fields, their order, widths and places, and the value of the word. -/
def Obligations.RFormatWordValue : Prop :=
  (∀ (op : BitVec 6) (rs rt rd : RegNum) (shamt : Shamt) (funct : BitVec 6),
    (rWord op rs rt rd shamt funct).toNat =
      op.toNat * 2 ^ 26 + rs.toNat * 2 ^ 21 + rt.toNat * 2 ^ 16 + rd.toNat * 2 ^ 11 + shamt.toNat * 2 ^ 6 +
        funct.toNat) ∧
  ∀ w : Word, rWord (opField w) (rsField w) (rtField w) (rdField w) (shamtField w) (functField w) = w

/-- Section 1.2 (the spec marks the placement of the I format's fields as its own inference): the value of an I-format word. -/
def Obligations.IFormatWordValue : Prop :=
  (∀ (op : BitVec 6) (rs rt : RegNum) (imm : Imm),
    (iWord op rs rt imm).toNat = op.toNat * 2 ^ 26 + rs.toNat * 2 ^ 21 + rt.toNat * 2 ^ 16 + imm.toNat) ∧
  ∀ w : Word, iWord (opField w) (rsField w) (rtField w) (immField w) = w

/-- R51: a three-register word with `shamt` not 0, and a shift word with `rs` not 0, is none of the 14 instructions and is
refused as reserved. -/
def Obligations.MustBeZeroFieldsRefused : Prop :=
  (∀ (rs rt rd : RegNum) (shamt : Shamt) (funct : BitVec 6), funct ∈ [32#6, 34#6, 36#6, 37#6, 38#6, 39#6] → shamt ≠ 0#5 →
    wellFormedWord (rWord 0 rs rt rd shamt funct) = false ∧
    decodeFetched (rWord 0 rs rt rd shamt funct) = .refused (.reservedInstruction (rWord 0 rs rt rd shamt funct))) ∧
  (∀ (rs rt rd : RegNum) (shamt : Shamt) (funct : BitVec 6), funct ∈ [0#6, 2#6, 3#6] → rs ≠ 0#5 →
    wellFormedWord (rWord 0 rs rt rd shamt funct) = false ∧
    decodeFetched (rWord 0 rs rt rd shamt funct) = .refused (.reservedInstruction (rWord 0 rs rt rd shamt funct)))

/-- Section 4: a running state that fetches a word matching none of the 14 patterns stops with the refusal, and nothing but
its status changes. -/
def Obligations.UnlistedWordRefused : Prop :=
  ∀ (s : State) (w : Word), s.status = .running → s.atEnd = false → fetch s = .next w → wellFormedWord w = false →
    step s = .refused (.reservedInstruction w) ∧
    tick s = { s with status := .refused (.reservedInstruction w) }

/-- Section 4: "the admitted ones number `3*2^15 + 6*2^15 + 5*2^26`". -/
def Obligations.AdmittedWordCount : Prop :=
  Set.ncard { w : Word | ∃ i, decode w = .ok i } = 3 * 2 ^ 15 + 6 * 2 ^ 15 + 5 * 2 ^ 26

/-- 95_test_vectors.md V-D: words of each family decode to the instruction the spec names, and reserved ones to none. -/
def Obligations.SpecWordsDecode : Prop :=
  decode 0x02328020#32 = .ok (.add 16 17 18) ∧ decode 0x016D4022#32 = .ok (.sub 8 11 13) ∧
  decode 0x2268FFF4#32 = .ok (.addi 8 19 0xFFF4#16) ∧ decode 0x8C0A0020#32 = .ok (.lw 10 0 0x20#16) ∧
  decode 0xAD310004#32 = .ok (.sw 17 9 4#16) ∧ decode 0x00114080#32 = .ok (.sll 8 17 2) ∧
  decode 0x00119883#32 = .ok (.sra 19 17 2) ∧ decode 0x3528FF00#32 = .ok (.ori 8 9 0xFF00#16) ∧
  decode 0x01204027#32 = .ok (.nor 8 9 0) ∧ decode 0x02328060#32 = .error (.shamtNotZero 1) ∧
  decode 0x00314080#32 = .error (.rsNotZero 1) ∧ decode 0x02328021#32 = .error (.unlistedFunct 33) ∧
  decode 0x3C081001#32 = .error (.unlistedOp 15)

/-- Section 4 (an inference the spec marks as its own): the all-zero word is `sll $zero, $zero, 0` and changes nothing but the pc. -/
def Obligations.ZeroWordOnlyAdvancesPc : Prop :=
  decode 0#32 = .ok (.sll 0 0 0) ∧
  ∀ s : State, s.status = .running → s.atEnd = false → fetch s = .next 0#32 →
    step s = .next { s with pc := s.pc + 4#32 }

/-! ### The step (70_reset_and_hazards.md, 60_exceptions.md section 3) -/

/-- When the word at the pc decodes to an instruction, a step is `exec` of it at that state; nothing stands around it. -/
def Obligations.StepRunsDecodedInstruction : Prop :=
  ∀ (s : State) (w : Word) (i : Instr), s.status = .running → aligned s.pc = true → s.params.inText s.pc = true →
    s.params.program[(s.pc.toNat - s.params.textBase.toNat) / 4]? = some w → decode w = .ok i → step s = exec i s

/-- 60_exceptions.md section 3, items 1 to 4: the order of the checks before an instruction executes. -/
def Obligations.StepChecksInOrder : Prop :=
  ∀ s : State, s.status = .running →
    (s.pc.toNat = s.params.textEnd → step s = .next { s with status := .final }) ∧
    (s.pc.toNat ≠ s.params.textEnd → aligned s.pc = false → step s = .fault (.addressErrorFetch s.pc)) ∧
    (s.pc.toNat ≠ s.params.textEnd → aligned s.pc = true → s.params.inText s.pc = false →
      step s = .refused (.fetchOutsideText s.pc)) ∧
    (aligned s.pc = true → s.params.inText s.pc = true →
      ∃ w, s.params.program[(s.pc.toNat - s.params.textBase.toNat) / 4]? = some w ∧
        (∀ e, decode w = .error e → step s = .refused (.reservedInstruction w)) ∧
        (∀ i, decode w = .ok i → step s = exec i s))

/-- 70_reset_and_hazards.md section 3 and 10_state.md section 8: a run whose pc is at `TEXT_END` becomes final, fetching nothing
and changing nothing else, and a final run stays as it is for good. That a final state answers itself, rather than no state,
is the model's choice (log 2). -/
def Obligations.EndOfRunIsFinal : Prop :=
  (∀ s : State, s.status = .running → s.pc.toNat = s.params.textEnd → tick s = { s with status := .final }) ∧
  ∀ (s : State) (k : Nat), s.status = .final → ticks k s = s

/-- 10_state.md section 3: every instruction that completes ends with `pc + 4` modulo 2^32, and one that faults or is refused
leaves the pc; that in a run the sum does not wrap and the pc stays a multiple of 4 is an inference the spec marks as its own. -/
def Obligations.CompletedInstructionAdvancesPc : Prop :=
  (∀ (i : Instr) (s t : State), exec i s = .next t → t.pc = s.pc + 4#32) ∧
  (∀ s t : State, s.inv → s.status = .running → s.atEnd = false → step s = .next t →
    t.pc.toNat = s.pc.toNat + 4 ∧ t.pc.toNat % 4 = 0) ∧
  (∀ (i : Instr) (s : State), (∀ t, exec i s ≠ .next t) → (s.after (exec i s)).pc = s.pc)

/-- Every step keeps the invariant: parameters within their constraints, memory canonical and only where data is mapped, the pc
a multiple of 4 within the text or at its end. -/
def Obligations.StepKeepsInvariant : Prop :=
  ∀ s t : State, s.inv → step s = .next t → t.inv

/-- The reset state has the invariant. It rests on the values the model names for reset (log 5 to 9). -/
def Obligations.ResetHasInvariant : Prop :=
  State.reset.inv

/-- What reset leaves: `pc = TEXT_BASE`, status `running`, `x[0] = 0` as the spec's launch says. That every other register and
every byte of memory is 0 is the model's choice (log 5, log 6), as are the empty program and `0x00400000` (log 7). -/
def Obligations.ResetState : Prop :=
  State.reset.pc = State.reset.params.textBase ∧ State.reset.status = .running ∧ State.reset.readReg 0 = 0#32 ∧
  (∀ r, State.reset.readReg r = 0#32) ∧ (∀ a, State.reset.mem.read a = 0#8) ∧
  State.reset.params.program = [] ∧ State.reset.pc = 0x00400000#32

/-- R110: the check on the parameters is the three constraints, for every address; and the launch state of any parameters,
registers and memory has the values the rule gives. -/
def Obligations.LaunchState : Prop :=
  (∀ p : Params, p.wf = true ↔
    p.textBase.toNat % 4 = 0 ∧ p.textBase.toNat + 4 * p.program.length < 2 ^ 32 ∧
    ∀ a : Word, aligned a = true → p.dataMapped a = true →
      ¬ (p.textBase.toNat ≤ a.toNat ∧ a.toNat < p.textBase.toNat + 4 * p.program.length)) ∧
  (∀ (p : Params) (regs0 : Vector Word 31) (mem0 : Memory),
    (State.launch p regs0 mem0).pc = p.textBase ∧ (State.launch p regs0 mem0).status = .running ∧
    (State.launch p regs0 mem0).readReg 0 = 0#32 ∧
    (∀ k : Fin 31, (State.launch p regs0 mem0).readReg (BitVec.ofNat 5 (k.val + 1)) = regs0[k.val]) ∧
    (∀ a : Nat, (State.launch p regs0 mem0).mem.read a = mem0.read a)) ∧
  ∀ s : State, s.isLaunch → s.inv

/-- 10_state.md section 1: `PROGRAM`, `TEXT_BASE`, `DATA_MAPPED` and `BYTE_ORDER` "never change during a run". -/
def Obligations.ParametersNeverChange : Prop :=
  ∀ (s : State) (k : Nat), (ticks k s).params = s.params

/-- 20_memory.md sections 3 and 6: in a state of a run, the two stops of a fetch cannot happen. -/
def Obligations.FetchStopsUnreachable : Prop :=
  ∀ s : State, s.inv → s.status = .running →
    (∀ a, step s ≠ .fault (.addressErrorFetch a)) ∧ (∀ a, step s ≠ .refused (.fetchOutsideText a))

/-- 70_reset_and_hazards.md section 3: every run ends, final at `TEXT_END`, faulted or refused, after at most one step for
each instruction left and the one that makes it final. -/
def Obligations.EveryRunEnds : Prop :=
  ∀ s : State, s.inv → s.status = .running →
    (∃ t, runSteps (s.remaining + 1) s = .next t ∧ t.status = .final ∧ t.pc.toNat = t.params.textEnd) ∨
    (∃ f, runSteps (s.remaining + 1) s = .fault f) ∨ (∃ q, runSteps (s.remaining + 1) s = .refused q)

/-- 70_reset_and_hazards.md section 3: a run executes the words from its pc on in address order, one a step: after `k` steps it
is still running and the pc is `4*k` further, until the end of the text. -/
def Obligations.WordsExecuteInAddressOrder : Prop :=
  ∀ (s t : State) (k : Nat), s.inv → s.status = .running → k ≤ s.remaining → runSteps k s = .next t →
    t.status = .running ∧ t.pc.toNat = s.pc.toNat + 4 * k

/-! ### Registers (10_state.md section 2) -/

/-- Section 2 (that a write changes no state is an inference the spec marks as its own): register 0 reads as zero; a write to it
changes no state; and an instruction whose destination is 0 otherwise executes in full: it completes exactly when the same
instruction with another destination does, faults when that faults, and is refused as that is refused. -/
def Obligations.RegisterZeroHardwired : Prop :=
  (∀ s : State, s.readReg 0 = 0#32) ∧
  (∀ (s : State) (v : Word), s.writeReg 0 v = s) ∧
  ∀ (i : Instr) (s : State), regWritten i ≠ none →
    match exec i s with
    | .next _ => exec (withDestination 0 i) s = .next { s with pc := s.pc + 4#32 }
    | .fault _ => ∃ g, exec (withDestination 0 i) s = .fault g
    | .refused q => exec (withDestination 0 i) s = .refused q

/-- Section 2 (that reads come before the write is an inference the spec marks as its own): what an instruction does depends on no
register but those listed as read: two states that differ elsewhere in the registers stop alike, or write the same value and
leave the same memory. -/
def Obligations.ResultDependsOnlyOnRegistersRead : Prop :=
  ∀ (i : Instr) (s t : State), (∀ r ∈ regsRead i, t.readReg r = s.readReg r) →
    t.pc = s.pc → t.mem = s.mem → t.params = s.params → t.status = s.status →
    match exec i s, exec i t with
    | .next s', .next t' =>
      (∀ d, regWritten i = some d → t'.readReg d = s'.readReg d) ∧ t'.pc = s'.pc ∧ t'.mem = s'.mem
    | .fault f, .fault g => f = g
    | .refused q, .refused r => q = r
    | _, _ => False

/-- Section 2: the frame of every instruction: no register but the one listed as written changes (`sw` writes none), no byte of
memory changes but by `sw`, and never the parameters or the status. -/
def Obligations.OnlyListedStateChanges : Prop :=
  ∀ (i : Instr) (s t : State), exec i s = .next t →
    (∀ r, regWritten i ≠ some r → t.readReg r = s.readReg r) ∧
    (regWritten i ≠ none → ∀ a, t.mem.read a = s.mem.read a) ∧
    t.params = s.params ∧ t.status = s.status

/-! ### Arithmetic (40_arithmetic.md) -/

/-- R60: `add`: its word and the words with a non-zero `shamt`; where the exact signed sum fits, the sum goes to `rd` and nothing
else changes; where it does not, the fault. -/
def Obligations.AddInstruction : Prop :=
  ∀ (rd rs rt : RegNum) (s : State),
    (decode (rWord 0 rs rt rd 0 32) = .ok (.add rd rs rt) ∧ rWord 0 rs rt rd 0 32 &&& 0xFC0007FF#32 = 0x00000020#32) ∧
    (∀ shamt, shamt ≠ 0#5 → ∃ e, decode (rWord 0 rs rt rd shamt 32) = .error e) ∧
    (-2147483648 ≤ (s.readReg rs).toInt + (s.readReg rt).toInt →
      (s.readReg rs).toInt + (s.readReg rt).toInt ≤ 2147483647 →
      ∃ t, exec (.add rd rs rt) s = .next t ∧ wroteRegister s t rd (s.readReg rs + s.readReg rt) ∧
        (rd ≠ 0#5 → (t.readReg rd).toInt = (s.readReg rs).toInt + (s.readReg rt).toInt)) ∧
    (¬ (-2147483648 ≤ (s.readReg rs).toInt + (s.readReg rt).toInt ∧
        (s.readReg rs).toInt + (s.readReg rt).toInt ≤ 2147483647) →
      exec (.add rd rs rt) s = .fault (.integerOverflow s.pc (rWord 0 rs rt rd 0 32)))

/-- R61: `sub`: the first operand minus the second, likewise. -/
def Obligations.SubInstruction : Prop :=
  ∀ (rd rs rt : RegNum) (s : State),
    (decode (rWord 0 rs rt rd 0 34) = .ok (.sub rd rs rt) ∧ rWord 0 rs rt rd 0 34 &&& 0xFC0007FF#32 = 0x00000022#32) ∧
    (∀ shamt, shamt ≠ 0#5 → ∃ e, decode (rWord 0 rs rt rd shamt 34) = .error e) ∧
    (-2147483648 ≤ (s.readReg rs).toInt - (s.readReg rt).toInt →
      (s.readReg rs).toInt - (s.readReg rt).toInt ≤ 2147483647 →
      ∃ t, exec (.sub rd rs rt) s = .next t ∧ wroteRegister s t rd (s.readReg rs - s.readReg rt) ∧
        (rd ≠ 0#5 → (t.readReg rd).toInt = (s.readReg rs).toInt - (s.readReg rt).toInt)) ∧
    (¬ (-2147483648 ≤ (s.readReg rs).toInt - (s.readReg rt).toInt ∧
        (s.readReg rs).toInt - (s.readReg rt).toInt ≤ 2147483647) →
      exec (.sub rd rs rt) s = .fault (.integerOverflow s.pc (rWord 0 rs rt rd 0 34)))

/-- R62: `addi`: every word with `op = 8`; the constant is read signed, -32768 to 32767; likewise. -/
def Obligations.AddiInstruction : Prop :=
  ∀ (rt rs : RegNum) (imm : Imm) (s : State),
    (decode (iWord 8 rs rt imm) = .ok (.addi rt rs imm) ∧ iWord 8 rs rt imm &&& 0xFC000000#32 = 0x20000000#32) ∧
    (-2147483648 ≤ (s.readReg rs).toInt + imm.toInt → (s.readReg rs).toInt + imm.toInt ≤ 2147483647 →
      ∃ t, exec (.addi rt rs imm) s = .next t ∧ wroteRegister s t rt (s.readReg rs + BitVec.signExtend 32 imm) ∧
        (rt ≠ 0#5 → (t.readReg rt).toInt = (s.readReg rs).toInt + imm.toInt)) ∧
    (¬ (-2147483648 ≤ (s.readReg rs).toInt + imm.toInt ∧ (s.readReg rs).toInt + imm.toInt ≤ 2147483647) →
      exec (.addi rt rs imm) s = .fault (.integerOverflow s.pc (iWord 8 rs rt imm)))

/-- R63: signed overflow of `add`, `sub` and `addi`, by the exact result and by the sign bits; on overflow the fault with the
pc and the word, the destination not written, the pc not advanced, the run stopped. -/
def Obligations.SignedOverflowFaults : Prop :=
  (∀ a b : Word, ¬ (-2147483648 ≤ a.toInt + b.toInt ∧ a.toInt + b.toInt ≤ 2147483647) ↔
    a.msb = b.msb ∧ (a + b).msb ≠ a.msb) ∧
  (∀ a b : Word, ¬ (-2147483648 ≤ a.toInt - b.toInt ∧ a.toInt - b.toInt ≤ 2147483647) ↔
    a.msb ≠ b.msb ∧ (a - b).msb ≠ a.msb) ∧
  (∀ (rd rs rt : RegNum) (s : State), (s.readReg rs).msb = (s.readReg rt).msb →
    (s.readReg rs + s.readReg rt).msb ≠ (s.readReg rs).msb →
    exec (.add rd rs rt) s = .fault (.integerOverflow s.pc (encode (.add rd rs rt)))) ∧
  (∀ (rd rs rt : RegNum) (s : State), (s.readReg rs).msb ≠ (s.readReg rt).msb →
    (s.readReg rs - s.readReg rt).msb ≠ (s.readReg rs).msb →
    exec (.sub rd rs rt) s = .fault (.integerOverflow s.pc (encode (.sub rd rs rt)))) ∧
  (∀ (rt rs : RegNum) (imm : Imm) (s : State), (s.readReg rs).msb = (BitVec.signExtend 32 imm).msb →
    (s.readReg rs + BitVec.signExtend 32 imm).msb ≠ (s.readReg rs).msb →
    exec (.addi rt rs imm) s = .fault (.integerOverflow s.pc (encode (.addi rt rs imm)))) ∧
  ∀ (s : State) (a w : Word), step s = .fault (.integerOverflow a w) →
    tick s = { s with status := .faulted (.integerOverflow a w) } ∧
    ∀ k, ticks k (tick s) = tick s

/-- R65: with destination 0 the result is discarded and the overflow test is still made. -/
def Obligations.OverflowTestedForRegisterZero : Prop :=
  ∀ (rs rt : RegNum) (imm : Imm) (s : State),
    (addOverflows (s.readReg rs) (s.readReg rt) = true →
      exec (.add 0 rs rt) s = .fault (.integerOverflow s.pc (encode (.add 0 rs rt)))) ∧
    (addOverflows (s.readReg rs) (s.readReg rt) = false → exec (.add 0 rs rt) s = .next { s with pc := s.pc + 4#32 }) ∧
    (subOverflows (s.readReg rs) (s.readReg rt) = true →
      exec (.sub 0 rs rt) s = .fault (.integerOverflow s.pc (encode (.sub 0 rs rt)))) ∧
    (subOverflows (s.readReg rs) (s.readReg rt) = false → exec (.sub 0 rs rt) s = .next { s with pc := s.pc + 4#32 }) ∧
    (addOverflows (s.readReg rs) (BitVec.signExtend 32 imm) = true →
      exec (.addi 0 rs imm) s = .fault (.integerOverflow s.pc (encode (.addi 0 rs imm)))) ∧
    (addOverflows (s.readReg rs) (BitVec.signExtend 32 imm) = false →
      exec (.addi 0 rs imm) s = .next { s with pc := s.pc + 4#32 })

/-! ### Loads and stores (41_load_store.md, 20_memory.md) -/

/-- R70: the effective address is the base plus the signed offset modulo 2^32, never a fault by itself; the base register is
not modified; with base 0 it is the offset itself. -/
def Obligations.EffectiveAddressWraps : Prop :=
  (∀ (s : State) (rs : RegNum) (imm : Imm),
    ((effectiveAddress s rs imm).toNat : Int) = ((s.readReg rs).toNat + imm.toInt) % 4294967296) ∧
  (∀ (s : State) (imm : Imm), effectiveAddress s 0 imm = BitVec.signExtend 32 imm ∧
    ((effectiveAddress s 0 imm).toNat ≤ 0x7FFF ∨ 0xFFFF8000 ≤ (effectiveAddress s 0 imm).toNat)) ∧
  (∀ (s t : State) (rt rs : RegNum) (imm : Imm), exec (.sw rt rs imm) s = .next t → t.readReg rs = s.readReg rs) ∧
  (∀ (s t : State) (rt rs : RegNum) (imm : Imm), rt ≠ rs → exec (.lw rt rs imm) s = .next t →
    t.readReg rs = s.readReg rs)

/-- R73: the checks on the effective address of `lw` and `sw`, in their order: alignment first, whatever the region; then the
text; then the mapping. -/
def Obligations.AccessChecksInOrder : Prop :=
  ∀ (s : State) (rt rs : RegNum) (imm : Imm) (ea : Word), ea = effectiveAddress s rs imm →
    (ea.toNat % 4 ≠ 0 → exec (.lw rt rs imm) s = .fault (.addressErrorLoad ea) ∧
      exec (.sw rt rs imm) s = .fault (.addressErrorStore ea)) ∧
    (ea.toNat % 4 = 0 → s.params.inText ea = true → exec (.lw rt rs imm) s = .refused (.textAccess ea .load) ∧
      exec (.sw rt rs imm) s = .refused (.textAccess ea .store)) ∧
    (ea.toNat % 4 = 0 → s.params.inText ea = false → s.params.dataMapped ea = false →
      exec (.lw rt rs imm) s = .refused (.unmappedAccess ea .load) ∧
      exec (.sw rt rs imm) s = .refused (.unmappedAccess ea .store))

/-- R71: `lw`: every word with `op = 35`; at an aligned address where data is mapped it completes, the word read goes to `rt`
and nothing else changes; at any other address it stops, as R30 orders the checks. -/
def Obligations.LoadWordInstruction : Prop :=
  ∀ (rt rs : RegNum) (imm : Imm) (s : State),
    (decode (iWord 35 rs rt imm) = .ok (.lw rt rs imm) ∧ iWord 35 rs rt imm &&& 0xFC000000#32 = 0x8C000000#32) ∧
    (aligned (effectiveAddress s rs imm) = true → s.params.regionOf (effectiveAddress s rs imm) = .data →
      ∃ t, exec (.lw rt rs imm) s = .next t ∧ wroteRegister s t rt (s.readWord (effectiveAddress s rs imm))) ∧
    (aligned (effectiveAddress s rs imm) = false →
      exec (.lw rt rs imm) s = .fault (.addressErrorLoad (effectiveAddress s rs imm))) ∧
    (aligned (effectiveAddress s rs imm) = true → s.params.regionOf (effectiveAddress s rs imm) = .text →
      exec (.lw rt rs imm) s = .refused (.textAccess (effectiveAddress s rs imm) .load)) ∧
    (aligned (effectiveAddress s rs imm) = true → s.params.regionOf (effectiveAddress s rs imm) = .unmapped →
      exec (.lw rt rs imm) s = .refused (.unmappedAccess (effectiveAddress s rs imm) .load))

/-- R72: `sw`: every word with `op = 43`; at an aligned address where data is mapped it completes, the word at the effective
address is the register's value, and every byte outside those four, every register and the rest is as before; at any other
address it stops. The premise that memory is canonical is part of the invariant every step keeps (StepKeepsInvariant). -/
def Obligations.StoreWordInstruction : Prop :=
  ∀ (rt rs : RegNum) (imm : Imm) (s : State), s.mem.wf →
    (decode (iWord 43 rs rt imm) = .ok (.sw rt rs imm) ∧ iWord 43 rs rt imm &&& 0xFC000000#32 = 0xAC000000#32) ∧
    (aligned (effectiveAddress s rs imm) = true → s.params.regionOf (effectiveAddress s rs imm) = .data →
      ∃ t, exec (.sw rt rs imm) s = .next t ∧ storedWord s t (effectiveAddress s rs imm) (s.readReg rt)) ∧
    (aligned (effectiveAddress s rs imm) = false →
      exec (.sw rt rs imm) s = .fault (.addressErrorStore (effectiveAddress s rs imm))) ∧
    (aligned (effectiveAddress s rs imm) = true → s.params.regionOf (effectiveAddress s rs imm) = .text →
      exec (.sw rt rs imm) s = .refused (.textAccess (effectiveAddress s rs imm) .store)) ∧
    (aligned (effectiveAddress s rs imm) = true → s.params.regionOf (effectiveAddress s rs imm) = .unmapped →
      exec (.sw rt rs imm) s = .refused (.unmappedAccess (effectiveAddress s rs imm) .store))

/-- R31: `MemWrite`: its three checks in order, and a write that changes exactly the one word and nothing else. -/
def Obligations.MemWriteChangesOneWord : Prop :=
  ∀ (s : State) (a v : Word),
    (a.toNat % 4 ≠ 0 → memWrite s a v = .fault (.addressErrorStore a)) ∧
    (a.toNat % 4 = 0 → s.params.inText a = true → memWrite s a v = .refused (.textAccess a .store)) ∧
    (a.toNat % 4 = 0 → s.params.inText a = false → s.params.dataMapped a = false →
      memWrite s a v = .refused (.unmappedAccess a .store)) ∧
    (s.mem.wf → a.toNat % 4 = 0 → s.params.inText a = false → s.params.dataMapped a = true →
      ∃ t, memWrite s a v = .next t ∧ t.readWord a = v ∧
        (∀ b : Word, b.toNat % 4 = 0 → b ≠ a → t.readWord b = s.readWord b) ∧
        (∀ k, (k < a.toNat ∨ a.toNat + 4 ≤ k) → t.mem.read k = s.mem.read k) ∧
        t.regs = s.regs ∧ t.pc = s.pc ∧ t.params = s.params ∧ t.status = s.status)

/-- 20_memory.md section 5: a load returns the word of the latest store to its address, however each of the two computes the
address, and a store leaves every other word. -/
def Obligations.LoadReturnsLatestStore : Prop :=
  ∀ (s t : State) (rt rs : RegNum) (imm : Imm), s.mem.wf → exec (.sw rt rs imm) s = .next t →
    (∀ (rd rb : RegNum) (off : Imm), effectiveAddress t rb off = effectiveAddress s rs imm →
      ∃ u, exec (.lw rd rb off) t = .next u ∧ wroteRegister t u rd (s.readReg rt)) ∧
    (∀ a : Word, a.toNat % 4 = 0 → a ≠ effectiveAddress s rs imm → t.readWord a = s.readWord a)

/-- R26: with `big`, byte `a` of a word holds bits 31:24 and byte `a+3` bits 7:0, with `little` the other way round; the same for
the words of data and for instruction words as the host reads them; and no step switches the order. -/
def Obligations.ByteOrderOfWords : Prop :=
  (∀ (s : State) (a : Word), s.params.byteOrder = .big →
    s.mem.read a.toNat = (s.readWord a).extractLsb' 24 8 ∧ s.mem.read (a.toNat + 1) = (s.readWord a).extractLsb' 16 8 ∧
    s.mem.read (a.toNat + 2) = (s.readWord a).extractLsb' 8 8 ∧ s.mem.read (a.toNat + 3) = (s.readWord a).extractLsb' 0 8) ∧
  (∀ (s : State) (a : Word), s.params.byteOrder = .little →
    s.mem.read a.toNat = (s.readWord a).extractLsb' 0 8 ∧ s.mem.read (a.toNat + 1) = (s.readWord a).extractLsb' 8 8 ∧
    s.mem.read (a.toNat + 2) = (s.readWord a).extractLsb' 16 8 ∧ s.mem.read (a.toNat + 3) = (s.readWord a).extractLsb' 24 8) ∧
  (∀ (s : State) (a w : Word) (k : Nat), s.params.wf = true → aligned a = true → s.params.inText a = true → k < 4 →
    s.params.program[(a.toNat - s.params.textBase.toNat) / 4]? = some w →
    s.hostByte (BitVec.ofNat 32 (a.toNat + k)) =
      some (match s.params.byteOrder with
        | .big => w.extractLsb' (24 - 8 * k) 8
        | .little => w.extractLsb' (8 * k) 8)) ∧
  (∀ (s : State) (a : Word) (k : Nat), s.params.wf = true → aligned a = true → s.params.regionOf a = .data → k < 4 →
    s.hostByte (BitVec.ofNat 32 (a.toNat + k)) = some (s.mem.read (a.toNat + k))) ∧
  (∀ (s : State) (k : Nat), (ticks k s).params.byteOrder = s.params.byteOrder)

/-- 20_memory.md section 2 (an inference the spec marks as its own): no program can tell the byte order: two states that hold the
same words in different byte orders run alike for any number of steps, with the same faults and refusals and the same words.
That each memory is canonical is part of the invariant every step keeps. -/
def Obligations.ByteOrderUnobservable : Prop :=
  ∀ (k : Nat) (s t : State), s.mem.wf → t.mem.wf → sameWords s t → sameWordsOutcome (runSteps k s) (runSteps k t)

/-! ### Logical instructions (42_logical.md) -/

/-- R75: `and`. -/
def Obligations.AndInstruction : Prop :=
  ∀ (rd rs rt : RegNum) (s : State),
    (decode (rWord 0 rs rt rd 0 36) = .ok (.and rd rs rt) ∧ rWord 0 rs rt rd 0 36 &&& 0xFC0007FF#32 = 0x00000024#32) ∧
    (∀ shamt, shamt ≠ 0#5 → ∃ e, decode (rWord 0 rs rt rd shamt 36) = .error e) ∧
    ∃ t v, exec (.and rd rs rt) s = .next t ∧ wroteRegister s t rd v ∧
      ∀ i, v.getLsbD i = true ↔ (s.readReg rs).getLsbD i = true ∧ (s.readReg rt).getLsbD i = true

/-- R76: `or`. -/
def Obligations.OrInstruction : Prop :=
  ∀ (rd rs rt : RegNum) (s : State),
    (decode (rWord 0 rs rt rd 0 37) = .ok (.or rd rs rt) ∧ rWord 0 rs rt rd 0 37 &&& 0xFC0007FF#32 = 0x00000025#32) ∧
    (∀ shamt, shamt ≠ 0#5 → ∃ e, decode (rWord 0 rs rt rd shamt 37) = .error e) ∧
    ∃ t v, exec (.or rd rs rt) s = .next t ∧ wroteRegister s t rd v ∧
      ∀ i, v.getLsbD i = true ↔ (s.readReg rs).getLsbD i = true ∨ (s.readReg rt).getLsbD i = true

/-- R77: `xor`. -/
def Obligations.XorInstruction : Prop :=
  ∀ (rd rs rt : RegNum) (s : State),
    (decode (rWord 0 rs rt rd 0 38) = .ok (.xor rd rs rt) ∧ rWord 0 rs rt rd 0 38 &&& 0xFC0007FF#32 = 0x00000026#32) ∧
    (∀ shamt, shamt ≠ 0#5 → ∃ e, decode (rWord 0 rs rt rd shamt 38) = .error e) ∧
    ∃ t v, exec (.xor rd rs rt) s = .next t ∧ wroteRegister s t rd v ∧
      ∀ i, v.getLsbD i = true ↔ (s.readReg rs).getLsbD i ≠ (s.readReg rt).getLsbD i

/-- R78: `nor`. -/
def Obligations.NorInstruction : Prop :=
  ∀ (rd rs rt : RegNum) (s : State),
    (decode (rWord 0 rs rt rd 0 39) = .ok (.nor rd rs rt) ∧ rWord 0 rs rt rd 0 39 &&& 0xFC0007FF#32 = 0x00000027#32) ∧
    (∀ shamt, shamt ≠ 0#5 → ∃ e, decode (rWord 0 rs rt rd shamt 39) = .error e) ∧
    ∃ t v, exec (.nor rd rs rt) s = .next t ∧ wroteRegister s t rd v ∧
      ∀ i, i < 32 → (v.getLsbD i = true ↔ (s.readReg rs).getLsbD i = false ∧ (s.readReg rt).getLsbD i = false)

/-- R79: `andi`: every word with `op = 12`; bits 31:16 of the result are 0. -/
def Obligations.AndiInstruction : Prop :=
  ∀ (rt rs : RegNum) (imm : Imm) (s : State),
    (decode (iWord 12 rs rt imm) = .ok (.andi rt rs imm) ∧ iWord 12 rs rt imm &&& 0xFC000000#32 = 0x30000000#32) ∧
    ∃ t v, exec (.andi rt rs imm) s = .next t ∧ wroteRegister s t rt v ∧
      (∀ i, i < 16 → (v.getLsbD i = true ↔ (s.readReg rs).getLsbD i = true ∧ imm.getLsbD i = true)) ∧
      ∀ i, 16 ≤ i → v.getLsbD i = false

/-- R80: `ori`: every word with `op = 13`; bits 31:16 of the result are those of the source. -/
def Obligations.OriInstruction : Prop :=
  ∀ (rt rs : RegNum) (imm : Imm) (s : State),
    (decode (iWord 13 rs rt imm) = .ok (.ori rt rs imm) ∧ iWord 13 rs rt imm &&& 0xFC000000#32 = 0x34000000#32) ∧
    ∃ t v, exec (.ori rt rs imm) s = .next t ∧ wroteRegister s t rt v ∧
      (∀ i, i < 16 → (v.getLsbD i = true ↔ (s.readReg rs).getLsbD i = true ∨ imm.getLsbD i = true)) ∧
      ∀ i, 16 ≤ i → v.getLsbD i = (s.readReg rs).getLsbD i

/-- R81: NOT of a register is `nor` with register 0: the idiom's word, every bit inverted, and the source's example. -/
def Obligations.NotByNor : Prop :=
  encode (.nor 8 9 0) = 0x01204027#32 ∧
  (∀ (rd rs : RegNum) (s : State), ∃ t, exec (.nor rd rs 0) s = .next t ∧ wroteRegister s t rd (~~~(s.readReg rs))) ∧
  ∀ s : State, s.readReg 9 = 0x00003C00#32 → ∃ t, exec (.nor 8 9 0) s = .next t ∧ t.readReg 8 = 0xFFFFC3FF#32

/-! ### Shifts (43_shift.md) -/

/-- R85: `sll`: zeros come in at the right. -/
def Obligations.SllInstruction : Prop :=
  ∀ (rd rt : RegNum) (shamt : Shamt) (s : State),
    (decode (rWord 0 0 rt rd shamt 0) = .ok (.sll rd rt shamt) ∧ rWord 0 0 rt rd shamt 0 &&& 0xFFE0003F#32 = 0x00000000#32) ∧
    (∀ rs, rs ≠ 0#5 → ∃ e, decode (rWord 0 rs rt rd shamt 0) = .error e) ∧
    ∃ t v, exec (.sll rd rt shamt) s = .next t ∧ wroteRegister s t rd v ∧
      ∀ i, i < 32 → v.getLsbD i = if i < shamt.toNat then false else (s.readReg rt).getLsbD (i - shamt.toNat)

/-- R86: `srl`: zeros come in at the left. -/
def Obligations.SrlInstruction : Prop :=
  ∀ (rd rt : RegNum) (shamt : Shamt) (s : State),
    (decode (rWord 0 0 rt rd shamt 2) = .ok (.srl rd rt shamt) ∧ rWord 0 0 rt rd shamt 2 &&& 0xFFE0003F#32 = 0x00000002#32) ∧
    (∀ rs, rs ≠ 0#5 → ∃ e, decode (rWord 0 rs rt rd shamt 2) = .error e) ∧
    ∃ t v, exec (.srl rd rt shamt) s = .next t ∧ wroteRegister s t rd v ∧
      ∀ i, i < 32 → v.getLsbD i = if i + shamt.toNat < 32 then (s.readReg rt).getLsbD (i + shamt.toNat) else false

/-- R87: `sra`: copies of bit 31 come in at the left. -/
def Obligations.SraInstruction : Prop :=
  ∀ (rd rt : RegNum) (shamt : Shamt) (s : State),
    (decode (rWord 0 0 rt rd shamt 3) = .ok (.sra rd rt shamt) ∧ rWord 0 0 rt rd shamt 3 &&& 0xFFE0003F#32 = 0x00000003#32) ∧
    (∀ rs, rs ≠ 0#5 → ∃ e, decode (rWord 0 rs rt rd shamt 3) = .error e) ∧
    ∃ t v, exec (.sra rd rt shamt) s = .next t ∧ wroteRegister s t rd v ∧
      ∀ i, i < 32 → v.getLsbD i =
        if i + shamt.toNat < 32 then (s.readReg rt).getLsbD (i + shamt.toNat) else (s.readReg rt).getLsbD 31

/-- Section 4 (an inference the spec marks as its own): the arithmetic reading of the three shifts, `sra` rounding toward minus
infinity; and where `sll` is exact, as an unsigned and as a signed number. -/
def Obligations.ShiftsMultiplyAndDivide : Prop :=
  ∀ (rd rt : RegNum) (shamt : Shamt) (s : State), rd ≠ 0#5 →
    (∃ t, exec (.sll rd rt shamt) s = .next t ∧
      (t.readReg rd).toNat = ((s.readReg rt).toNat * 2 ^ shamt.toNat) % 2 ^ 32 ∧
      ((s.readReg rt).toNat < 2 ^ (32 - shamt.toNat) →
        (t.readReg rd).toNat = (s.readReg rt).toNat * 2 ^ shamt.toNat) ∧
      (-2147483648 ≤ (s.readReg rt).toInt * 2 ^ shamt.toNat → (s.readReg rt).toInt * 2 ^ shamt.toNat ≤ 2147483647 →
        (t.readReg rd).toInt = (s.readReg rt).toInt * 2 ^ shamt.toNat)) ∧
    (∃ t, exec (.srl rd rt shamt) s = .next t ∧ (t.readReg rd).toNat = (s.readReg rt).toNat / 2 ^ shamt.toNat) ∧
    (∃ t, exec (.sra rd rt shamt) s = .next t ∧
      (t.readReg rd).toInt = Int.fdiv (s.readReg rt).toInt (2 ^ shamt.toNat))

/-! ### Faults and refusals (60_exceptions.md) -/

/-- R90: a fault leaves every register, memory and the pc as they were, the status becomes `faulted`, no further step is
possible, and the run never is final. -/
def Obligations.FaultChangesOnlyStatus : Prop :=
  ∀ (s : State) (f : Fault), s.status = .running → step s = .fault f →
    tick s = { s with status := .faulted f } ∧ (∀ k, ticks k (tick s) = tick s) ∧
    (∀ t, step (tick s) ≠ .next t) ∧ ∀ t, ¬ endsFinal (tick s) t ∧ ¬ endsFinal s t

/-- R91: likewise for a refusal. -/
def Obligations.RefusalChangesOnlyStatus : Prop :=
  ∀ (s : State) (q : Refusal), s.status = .running → step s = .refused q →
    tick s = { s with status := .refused q } ∧ (∀ k, ticks k (tick s) = tick s) ∧
    (∀ t, step (tick s) ≠ .next t) ∧ ∀ t, ¬ endsFinal (tick s) t ∧ ¬ endsFinal s t

/-- R92: the complete list of faults: a running state faults exactly when fetch finds the pc misaligned, or the instruction it
names is `add`, `sub` or `addi` and overflows, or `lw` or `sw` at a misaligned address, with the info the table gives. -/
def Obligations.FaultsAreExactlyTheListedOnes : Prop :=
  ∀ (s : State) (f : Fault), s.status = .running →
    (step s = .fault f ↔ s.pc.toNat ≠ s.params.textEnd ∧
      ((s.pc.toNat % 4 ≠ 0 ∧ f = .addressErrorFetch s.pc) ∨
       ∃ w i, fetch s = .next w ∧ decode w = .ok i ∧
        ((∃ rd rs rt, i = .add rd rs rt ∧ addOverflows (s.readReg rs) (s.readReg rt) = true ∧
            f = .integerOverflow s.pc w) ∨
         (∃ rd rs rt, i = .sub rd rs rt ∧ subOverflows (s.readReg rs) (s.readReg rt) = true ∧
            f = .integerOverflow s.pc w) ∨
         (∃ rt rs imm, i = .addi rt rs imm ∧ addOverflows (s.readReg rs) (sext32 imm) = true ∧
            f = .integerOverflow s.pc w) ∨
         (∃ rt rs imm, i = .lw rt rs imm ∧ (effectiveAddress s rs imm).toNat % 4 ≠ 0 ∧
            f = .addressErrorLoad (effectiveAddress s rs imm)) ∨
         (∃ rt rs imm, i = .sw rt rs imm ∧ (effectiveAddress s rs imm).toNat % 4 ≠ 0 ∧
            f = .addressErrorStore (effectiveAddress s rs imm)))))

/-- R93: the complete list of refusals, likewise. -/
def Obligations.RefusalsAreExactlyTheListedOnes : Prop :=
  ∀ (s : State) (q : Refusal), s.status = .running →
    (step s = .refused q ↔ s.pc.toNat ≠ s.params.textEnd ∧
      ((s.pc.toNat % 4 = 0 ∧ s.params.inText s.pc = false ∧ q = .fetchOutsideText s.pc) ∨
       ∃ w, fetch s = .next w ∧
        ((wellFormedWord w = false ∧ q = .reservedInstruction w) ∨
         (∃ rt rs imm kind, ((decode w = .ok (.lw rt rs imm) ∧ kind = .load) ∨
              (decode w = .ok (.sw rt rs imm) ∧ kind = .store)) ∧
            (effectiveAddress s rs imm).toNat % 4 = 0 ∧
            ((s.params.inText (effectiveAddress s rs imm) = true ∧ q = .textAccess (effectiveAddress s rs imm) kind) ∨
             (s.params.inText (effectiveAddress s rs imm) = false ∧
              s.params.dataMapped (effectiveAddress s rs imm) = false ∧
              q = .unmappedAccess (effectiveAddress s rs imm) kind))))))

/-! ### Assembly (30_encoding.md section 5) -/

/-- Section 5: the line written for an instruction assembles to that instruction. -/
def Obligations.AssembleOfDisassemble : Prop :=
  ∀ i : Instr, assemble (disassemble i) = .ok i

/-- Section 5: the register-immediate form: a constant in range is encoded in the 16-bit field and read back as itself; one out
of range is rejected. -/
def Obligations.ImmediateConstantsInRange : Prop :=
  ∀ (t a : String) (rt rs : RegNum) (c : Int), regOfName t = some rt → regOfName a = some rs →
    ((-32768 ≤ c ∧ c ≤ 32767 → ∃ imm : Imm, imm.toInt = c ∧
        assemble ⟨"addi", [.reg t, .reg a, .const c]⟩ = .ok (.addi rt rs imm)) ∧
     (¬ (-32768 ≤ c ∧ c ≤ 32767) →
        assemble ⟨"addi", [.reg t, .reg a, .const c]⟩ = .error (.constantOutOfRange c))) ∧
    ((0 ≤ c ∧ c ≤ 65535 → ∃ imm : Imm, (imm.toNat : Int) = c ∧
        assemble ⟨"andi", [.reg t, .reg a, .const c]⟩ = .ok (.andi rt rs imm) ∧
        assemble ⟨"ori", [.reg t, .reg a, .const c]⟩ = .ok (.ori rt rs imm)) ∧
     (¬ (0 ≤ c ∧ c ≤ 65535) →
        assemble ⟨"andi", [.reg t, .reg a, .const c]⟩ = .error (.constantOutOfRange c) ∧
        assemble ⟨"ori", [.reg t, .reg a, .const c]⟩ = .error (.constantOutOfRange c)))
end

