-- ==== Sys2Proof/Laws/Encoding.lean ====
section
/-!
SUPPORT. The fields of a word put together from its fields (spec/30_encoding.md R41, R43), and a word put together from its own.
-/

namespace Sys2Proof

/-! ### Fields of an R-format word -/

section
variable (op : BitVec 6) (rs rt rd : RegNum) (h : Shamt) (f : BitVec 6)

@[simp] theorem opField_rWord : opField (rWord op rs rt rd h f) = op := by
  simp only [opField, rWord]
  ext i hi
  simp only [BitVec.getElem_extractLsb', BitVec.getLsbD_append]
  rw [if_neg (by omega), if_neg (by omega), if_neg (by omega), if_neg (by omega), if_neg (by omega),
    show 26 + i - 6 - 5 - 5 - 5 - 5 = i by omega, BitVec.getLsbD_eq_getElem]

@[simp] theorem rsField_rWord : rsField (rWord op rs rt rd h f) = rs := by
  simp only [rsField, rWord]
  ext i hi
  simp only [BitVec.getElem_extractLsb', BitVec.getLsbD_append]
  rw [if_neg (by omega), if_neg (by omega), if_neg (by omega), if_neg (by omega), if_pos (by omega),
    show 21 + i - 6 - 5 - 5 - 5 = i by omega, BitVec.getLsbD_eq_getElem]

@[simp] theorem rtField_rWord : rtField (rWord op rs rt rd h f) = rt := by
  simp only [rtField, rWord]
  ext i hi
  simp only [BitVec.getElem_extractLsb', BitVec.getLsbD_append]
  rw [if_neg (by omega), if_neg (by omega), if_neg (by omega), if_pos (by omega),
    show 16 + i - 6 - 5 - 5 = i by omega, BitVec.getLsbD_eq_getElem]

@[simp] theorem rdField_rWord : rdField (rWord op rs rt rd h f) = rd := by
  simp only [rdField, rWord]
  ext i hi
  simp only [BitVec.getElem_extractLsb', BitVec.getLsbD_append]
  rw [if_neg (by omega), if_neg (by omega), if_pos (by omega),
    show 11 + i - 6 - 5 = i by omega, BitVec.getLsbD_eq_getElem]

@[simp] theorem shamtField_rWord : shamtField (rWord op rs rt rd h f) = h := by
  simp only [shamtField, rWord]
  ext i hi
  simp only [BitVec.getElem_extractLsb', BitVec.getLsbD_append]
  rw [if_neg (by omega), if_pos (by omega), show 6 + i - 6 = i by omega, BitVec.getLsbD_eq_getElem]

@[simp] theorem functField_rWord : functField (rWord op rs rt rd h f) = f := by
  simp only [functField, rWord]
  ext i hi
  simp only [BitVec.getElem_extractLsb', BitVec.getLsbD_append]
  rw [if_pos (by omega), Nat.zero_add, BitVec.getLsbD_eq_getElem]

end

/-! ### Fields of an I-format word -/

section
variable (op : BitVec 6) (rs rt : RegNum) (imm : Imm)

@[simp] theorem opField_iWord : opField (iWord op rs rt imm) = op := by
  simp only [opField, iWord]
  ext i hi
  simp only [BitVec.getElem_extractLsb', BitVec.getLsbD_append]
  rw [if_neg (by omega), if_neg (by omega), if_neg (by omega),
    show 26 + i - 16 - 5 - 5 = i by omega, BitVec.getLsbD_eq_getElem]

@[simp] theorem rsField_iWord : rsField (iWord op rs rt imm) = rs := by
  simp only [rsField, iWord]
  ext i hi
  simp only [BitVec.getElem_extractLsb', BitVec.getLsbD_append]
  rw [if_neg (by omega), if_neg (by omega), if_pos (by omega),
    show 21 + i - 16 - 5 = i by omega, BitVec.getLsbD_eq_getElem]

@[simp] theorem rtField_iWord : rtField (iWord op rs rt imm) = rt := by
  simp only [rtField, iWord]
  ext i hi
  simp only [BitVec.getElem_extractLsb', BitVec.getLsbD_append]
  rw [if_neg (by omega), if_pos (by omega), show 16 + i - 16 = i by omega, BitVec.getLsbD_eq_getElem]

@[simp] theorem immField_iWord : immField (iWord op rs rt imm) = imm := by
  simp only [immField, iWord]
  ext i hi
  simp only [BitVec.getElem_extractLsb', BitVec.getLsbD_append]
  rw [if_pos (by omega), Nat.zero_add, BitVec.getLsbD_eq_getElem]

end

/-! ### Masking works field by field -/

theorem rWord_and (op op' : BitVec 6) (rs rs' rt rt' rd rd' : RegNum) (h h' : Shamt) (f f' : BitVec 6) :
    rWord op rs rt rd h f &&& rWord op' rs' rt' rd' h' f' =
      rWord (op &&& op') (rs &&& rs') (rt &&& rt') (rd &&& rd') (h &&& h') (f &&& f') := by
  refine BitVec.eq_of_getLsbD_eq (fun i hi => ?_)
  simp only [rWord, BitVec.getLsbD_and, BitVec.getLsbD_append]
  repeat' split
  all_goals rfl

theorem iWord_and (op op' : BitVec 6) (rs rs' rt rt' : RegNum) (imm imm' : Imm) :
    iWord op rs rt imm &&& iWord op' rs' rt' imm' = iWord (op &&& op') (rs &&& rs') (rt &&& rt') (imm &&& imm') := by
  refine BitVec.eq_of_getLsbD_eq (fun i hi => ?_)
  simp only [iWord, BitVec.getLsbD_and, BitVec.getLsbD_append]
  repeat' split
  all_goals rfl

/-! ### A word is its fields -/

theorem rWord_fields (w : Word) :
    rWord (opField w) (rsField w) (rtField w) (rdField w) (shamtField w) (functField w) = w := by
  refine BitVec.eq_of_getLsbD_eq (fun i hi => ?_)
  simp only [rWord, opField, rsField, rtField, rdField, shamtField, functField, BitVec.getLsbD_append,
    BitVec.getLsbD_extractLsb']
  repeat' split
  all_goals
    rw [decide_eq_true (by omega), Bool.true_and]
    congr 1
    omega

theorem iWord_fields (w : Word) : iWord (opField w) (rsField w) (rtField w) (immField w) = w := by
  refine BitVec.eq_of_getLsbD_eq (fun i hi => ?_)
  simp only [iWord, opField, rsField, rtField, immField, BitVec.getLsbD_append, BitVec.getLsbD_extractLsb']
  repeat' split
  all_goals
    rw [decide_eq_true (by omega), Bool.true_and]
    congr 1
    omega

end Sys2Proof
end

