-- ==== Sys2Proof/Laws/Memory.lean ====
section
/-!
SUPPORT. The laws of data memory: each operation keeps the canonical form; a read after a write gives the byte written at
that address and the old byte everywhere else; the same for words.
-/

namespace Sys2Proof

/-! ### Bytes of a word (R26) -/

theorem wordOfBytes_byteOfWord (o : ByteOrder) (v : Word) :
    wordOfBytes o (byteOfWord o v 0) (byteOfWord o v 1) (byteOfWord o v 2) (byteOfWord o v 3) = v := by
  cases o <;>
  · simp only [wordOfBytes, byteOfWord]
    ext i hi
    simp only [BitVec.getElem_append, BitVec.getElem_extractLsb']
    split
    · simp [← BitVec.getLsbD_eq_getElem]
    · split
      · rw [← BitVec.getLsbD_eq_getElem]; congr 1; omega
      · split
        · rw [← BitVec.getLsbD_eq_getElem]; congr 1; omega
        · rw [← BitVec.getLsbD_eq_getElem]; congr 1; omega

namespace Machine

/-! ### The canonical form -/

theorem Memory.mem_cell {a : Nat} {b : Byte} {c : Host.Cell} (h : c ∈ Memory.cell a b) :
    c = (a, b) ∧ b ≠ Config.unlistedByte := by
  unfold Memory.cell at h
  split at h
  · simp at h
  · exact ⟨by simpa using h, by assumption⟩

/-- A cell of the memory after a write is the written one or an old one. -/
theorem Memory.mem_write {m : Memory} {a : Nat} {b : Byte} {c : Host.Cell} (h : c ∈ m.write a b) :
    (c = (a, b) ∧ b ≠ Config.unlistedByte) ∨ c ∈ m := by
  induction m with
  | nil => exact .inl (Memory.mem_cell h)
  | cons d m ih =>
    simp only [Memory.write] at h
    split at h
    · rcases List.mem_append.mp h with h | h
      · exact .inl (Memory.mem_cell h)
      · exact .inr h
    · split at h
      · rcases List.mem_append.mp h with h | h
        · exact .inl (Memory.mem_cell h)
        · exact .inr (List.mem_cons_of_mem _ h)
      · rcases List.mem_cons.mp h with h | h
        · exact .inr (h ▸ List.mem_cons_self)
        · exact (ih h).imp_right (List.mem_cons_of_mem _)

theorem Memory.wf_nil : Memory.wf [] := ⟨List.Pairwise.nil, by simp⟩

theorem Memory.wf_tail {c : Host.Cell} {m : Memory} (h : Memory.wf (c :: m)) : Memory.wf m :=
  ⟨(List.pairwise_cons.mp h.1).2, fun d hd => h.2 d (List.mem_cons_of_mem _ hd)⟩

/-- Putting a cell before a canonical memory whose addresses are all higher. -/
theorem Memory.wf_cell_append {a : Nat} {b : Byte} {m : Memory} (h : Memory.wf m) (ha : ∀ c ∈ m, a < c.1) :
    Memory.wf (Memory.cell a b ++ m) := by
  unfold Memory.cell
  split
  · simpa using h
  · rename_i hb
    exact ⟨List.pairwise_cons.mpr ⟨ha, h.1⟩, by
      intro c hc
      rcases List.mem_cons.mp hc with hc | hc
      · exact hc ▸ hb
      · exact h.2 c hc⟩

theorem Memory.wf_write {m : Memory} (h : m.wf) (a : Nat) (b : Byte) : (m.write a b).wf := by
  induction m with
  | nil => simpa [Memory.write] using Memory.wf_cell_append (m := []) (a := a) (b := b) h (by simp)
  | cons c m ih =>
    have hc := (List.pairwise_cons.mp h.1).1
    simp only [Memory.write]
    split
    · rename_i hlt
      refine Memory.wf_cell_append h ?_
      intro d hd
      rcases List.mem_cons.mp hd with hd | hd
      · exact hd ▸ hlt
      · exact Nat.lt_trans hlt (hc d hd)
    · split
      · rename_i heq
        exact Memory.wf_cell_append (Memory.wf_tail h) (fun d hd => heq ▸ hc d hd)
      · rename_i hlt hne
        have ht := ih (Memory.wf_tail h)
        refine ⟨List.pairwise_cons.mpr ⟨?_, ht.1⟩, ?_⟩
        · intro d hd
          rcases Memory.mem_write hd with ⟨hd, -⟩ | hd
          · subst hd; simp only; omega
          · exact hc d hd
        · intro d hd
          rcases List.mem_cons.mp hd with hd | hd
          · exact hd ▸ h.2 c List.mem_cons_self
          · exact ht.2 d hd

theorem Memory.wf_writeWord {m : Memory} (h : m.wf) (o : ByteOrder) (a : Nat) (v : Word) :
    (Memory.writeWord o m a v).wf :=
  Memory.wf_write (Memory.wf_write (Memory.wf_write (Memory.wf_write h _ _) _ _) _ _) _ _

/-- A cell of the memory after a word is stored lies in the word or was there before. -/
theorem Memory.mem_writeWord {m : Memory} {o : ByteOrder} {a : Nat} {v : Word} {c : Host.Cell}
    (h : c ∈ Memory.writeWord o m a v) : (∃ k, k < 4 ∧ c.1 = a + k) ∨ c ∈ m := by
  rcases Memory.mem_write h with ⟨rfl, -⟩ | h
  · exact .inl ⟨3, by omega, rfl⟩
  rcases Memory.mem_write h with ⟨rfl, -⟩ | h
  · exact .inl ⟨2, by omega, rfl⟩
  rcases Memory.mem_write h with ⟨rfl, -⟩ | h
  · exact .inl ⟨1, by omega, rfl⟩
  rcases Memory.mem_write h with ⟨rfl, -⟩ | h
  · exact .inl ⟨0, by omega, rfl⟩
  exact .inr h

/-! ### Reading -/

theorem Memory.read_of_lt {m : Memory} {a : Nat} (h : ∀ c ∈ m, a < c.1) : m.read a = Config.unlistedByte := by
  induction m with
  | nil => rfl
  | cons c m ih =>
    have := h c List.mem_cons_self
    simp only [Memory.read]
    rw [if_neg (by omega), ih (fun d hd => h d (List.mem_cons_of_mem _ hd))]

theorem Memory.read_cell_append {a k : Nat} {b : Byte} {m : Memory} (ha : ∀ c ∈ m, a < c.1) :
    Memory.read (Memory.cell a b ++ m) k = if k = a then b else m.read k := by
  unfold Memory.cell
  split
  · rename_i hb
    split
    · rename_i hk
      subst hk
      simpa [hb] using Memory.read_of_lt ha
    · rfl
  · simp only [List.cons_append, List.nil_append, Memory.read]
    by_cases hk : k = a
    · simp [hk]
    · simp [hk, Ne.symm hk]

/-- A byte after a write. -/
theorem Memory.read_write {m : Memory} (h : m.wf) (a k : Nat) (b : Byte) :
    (m.write a b).read k = if k = a then b else m.read k := by
  induction m with
  | nil => simpa [Memory.write] using Memory.read_cell_append (m := []) (a := a) (b := b) (k := k) (by simp)
  | cons c m ih =>
    have hc := (List.pairwise_cons.mp h.1).1
    simp only [Memory.write]
    split
    · rename_i hlt
      refine Memory.read_cell_append ?_
      intro d hd
      rcases List.mem_cons.mp hd with hd | hd
      · exact hd ▸ hlt
      · exact Nat.lt_trans hlt (hc d hd)
    · split
      · rename_i heq
        rw [Memory.read_cell_append (fun d hd => heq ▸ hc d hd)]
        by_cases hk : k = a
        · simp [hk]
        · simp [Memory.read, hk, show ¬ c.1 = k by omega]
      · rename_i hlt hne
        simp only [Memory.read, ih (Memory.wf_tail h)]
        by_cases hk : c.1 = k
        · simp [hk, show ¬ k = a by omega]
        · simp [hk]

/-- A byte after a word is stored. -/
theorem Memory.read_writeWord {m : Memory} (h : m.wf) (o : ByteOrder) (a k : Nat) (v : Word) :
    (Memory.writeWord o m a v).read k =
      if a ≤ k ∧ k < a + 4 then byteOfWord o v (k - a) else m.read k := by
  have h1 := Memory.wf_write h a (byteOfWord o v 0)
  have h2 := Memory.wf_write h1 (a + 1) (byteOfWord o v 1)
  have h3 := Memory.wf_write h2 (a + 2) (byteOfWord o v 2)
  unfold Memory.writeWord
  rw [Memory.read_write h3, Memory.read_write h2, Memory.read_write h1, Memory.read_write h]
  by_cases hk : a ≤ k ∧ k < a + 4
  · obtain rfl | rfl | rfl | rfl : k = a ∨ k = a + 1 ∨ k = a + 2 ∨ k = a + 3 := by omega
    all_goals simp
  · rw [if_neg hk, if_neg (by omega), if_neg (by omega), if_neg (by omega), if_neg (by omega)]

/-- A word read where it was stored. -/
theorem Memory.readWord_writeWord_same {m : Memory} (h : m.wf) (o : ByteOrder) (a : Nat) (v : Word) :
    Memory.readWord o (Memory.writeWord o m a v) a = v := by
  simp only [Memory.readWord, Memory.read_writeWord h]
  simpa using wordOfBytes_byteOfWord o v

/-- A word read away from the stored one. -/
theorem Memory.readWord_writeWord_other {m : Memory} (h : m.wf) (o o' : ByteOrder) {a k : Nat}
    (hk : k + 4 ≤ a ∨ a + 4 ≤ k) (v : Word) :
    Memory.readWord o' (Memory.writeWord o m a v) k = Memory.readWord o' m k := by
  simp only [Memory.readWord, Memory.read_writeWord h]
  rw [if_neg (by omega), if_neg (by omega), if_neg (by omega), if_neg (by omega)]

/-! ### Equal memories are equal data -/

theorem Memory.read_of_mem {m : Memory} (h : m.wf) {c : Host.Cell} (hc : c ∈ m) : m.read c.1 = c.2 := by
  induction m with
  | nil => simp at hc
  | cons d m ih =>
    rcases List.mem_cons.mp hc with hcd | hcm
    · simp [Memory.read, hcd]
    · have := (List.pairwise_cons.mp h.1).1 c hcm
      simp only [Memory.read]
      rw [if_neg (by omega)]
      exact ih (Memory.wf_tail h) hcm

/-- Two canonical memories that read the same everywhere are the same list. -/
theorem Memory.ext_read {m n : Memory} (hm : m.wf) (hn : n.wf) (h : ∀ a, m.read a = n.read a) : m = n := by
  induction m generalizing n with
  | nil =>
    cases n with
    | nil => rfl
    | cons d n =>
      have := h d.1
      simp only [Memory.read, ite_true] at this
      exact absurd this.symm (hn.2 d List.mem_cons_self)
  | cons c m ih =>
    cases n with
    | nil =>
      have := h c.1
      simp only [Memory.read, ite_true] at this
      exact absurd this (hm.2 c List.mem_cons_self)
    | cons d n =>
      have hcm := (List.pairwise_cons.mp hm.1).1
      have hdn := (List.pairwise_cons.mp hn.1).1
      have hcv := hm.2 c List.mem_cons_self
      have hdv := hn.2 d List.mem_cons_self
      have hcd : c.1 = d.1 := by
        rcases Nat.lt_trichotomy c.1 d.1 with hlt | heq | hgt
        · have hr := h c.1
          rw [Memory.read_of_lt (m := d :: n) (a := c.1) (by
            intro e he
            rcases List.mem_cons.mp he with he | he
            · exact he ▸ hlt
            · exact Nat.lt_trans hlt (hdn e he))] at hr
          simp only [Memory.read, ite_true] at hr
          exact absurd hr hcv
        · exact heq
        · have hr := h d.1
          rw [Memory.read_of_lt (m := c :: m) (a := d.1) (by
            intro e he
            rcases List.mem_cons.mp he with he | he
            · exact he ▸ hgt
            · exact Nat.lt_trans hgt (hcm e he))] at hr
          simp only [Memory.read, ite_true] at hr
          exact absurd hr.symm hdv
      have hv : c.2 = d.2 := by
        have := h c.1
        simpa [Memory.read, hcd] using this
      have hmn : m = n := by
        refine ih (Memory.wf_tail hm) (Memory.wf_tail hn) (fun a => ?_)
        by_cases ha : c.1 = a
        · rw [Memory.read_of_lt (fun e he => ha ▸ hcm e he),
            Memory.read_of_lt (fun e he => ha ▸ hcd ▸ hdn e he)]
        · have hd : ¬ d.1 = a := fun h' => ha (hcd.trans h')
          simpa [Memory.read, ha, hd] using h a
      rw [hmn, Prod.ext hcd hv]

end Machine

end Sys2Proof
end

