-- ==== Sys2Proof/Laws/State.lean ====
section
/-!
SUPPORT. One lemma per field per update of State, and reading a register after a write.
-/

namespace Sys2Proof.Machine

variable (s : State) (r d : RegNum) (v a : Word)

/-! ### advance -/

@[simp] theorem State.advance_pc : s.advance.pc = s.pc + 4#32 := rfl
@[simp] theorem State.advance_regs : s.advance.regs = s.regs := rfl
@[simp] theorem State.advance_mem : s.advance.mem = s.mem := rfl
@[simp] theorem State.advance_params : s.advance.params = s.params := rfl
@[simp] theorem State.advance_status : s.advance.status = s.status := rfl
@[simp] theorem State.advance_readReg : s.advance.readReg r = s.readReg r := rfl
@[simp] theorem State.advance_readWord : s.advance.readWord a = s.readWord a := rfl

/-! ### finish -/

@[simp] theorem State.finish_pc : s.finish.pc = s.pc := rfl
@[simp] theorem State.finish_regs : s.finish.regs = s.regs := rfl
@[simp] theorem State.finish_mem : s.finish.mem = s.mem := rfl
@[simp] theorem State.finish_params : s.finish.params = s.params := rfl
@[simp] theorem State.finish_status : s.finish.status = .final := rfl

/-! ### writeWord -/

@[simp] theorem State.writeWord_pc : (s.writeWord a v).pc = s.pc := rfl
@[simp] theorem State.writeWord_regs : (s.writeWord a v).regs = s.regs := rfl
@[simp] theorem State.writeWord_params : (s.writeWord a v).params = s.params := rfl
@[simp] theorem State.writeWord_status : (s.writeWord a v).status = s.status := rfl
@[simp] theorem State.writeWord_readReg : (s.writeWord a v).readReg r = s.readReg r := rfl
theorem State.writeWord_mem :
    (s.writeWord a v).mem = Memory.writeWord s.params.byteOrder s.mem a.toNat v := rfl

/-! ### writeReg -/

@[simp] theorem State.writeReg_pc : (s.writeReg d v).pc = s.pc := by
  unfold State.writeReg; split <;> rfl

@[simp] theorem State.writeReg_mem : (s.writeReg d v).mem = s.mem := by
  unfold State.writeReg; split <;> rfl

@[simp] theorem State.writeReg_params : (s.writeReg d v).params = s.params := by
  unfold State.writeReg; split <;> rfl

@[simp] theorem State.writeReg_status : (s.writeReg d v).status = s.status := by
  unfold State.writeReg; split <;> rfl

@[simp] theorem State.writeReg_readWord : (s.writeReg d v).readWord a = s.readWord a := by
  simp [State.readWord]

/-- Two register numbers that are not 0 name the same place only if they are equal. -/
theorem regIndex_inj {r d : RegNum} (hr : r ≠ 0#5) (hd : d ≠ 0#5) (h : d.toNat - 1 = r.toNat - 1) : d = r := by
  have hr' : r.toNat ≠ 0 := fun h0 => hr (BitVec.eq_of_toNat_eq (by simpa using h0))
  have hd' : d.toNat ≠ 0 := fun h0 => hd (BitVec.eq_of_toNat_eq (by simpa using h0))
  exact BitVec.eq_of_toNat_eq (by omega)

/-- A register after a write to one: register 0 stays zero, the written one holds the value, the others are as before. -/
theorem State.readReg_writeReg :
    (s.writeReg d v).readReg r = if r = 0#5 then 0#32 else if r = d then v else s.readReg r := by
  by_cases hr : r = 0#5
  · simp [State.readReg, hr]
  by_cases hd : d = 0#5
  · have : r ≠ d := fun h => hr (h.trans hd)
    simp [State.writeReg, hd, hr]
  by_cases hrd : r = d
  · subst hrd
    simp [State.readReg, State.writeReg, hr]
  · have : d.toNat - 1 ≠ r.toNat - 1 := fun h => hrd (regIndex_inj hr hd h).symm
    simp [State.readReg, State.writeReg, hr, hd, hrd, this]

/-! ### Registers as data -/

/-- Two states whose registers read the same hold the same registers. -/
theorem State.regs_ext {s t : State} (h : ∀ r, t.readReg r = s.readReg r) : t.regs = s.regs := by
  apply Vector.ext
  intro i hi
  have hne : BitVec.ofNat 5 (i + 1) ≠ 0#5 := by
    intro h0
    have := congrArg BitVec.toNat h0
    simp at this
    omega
  have hv : (i + 1) % 32 - 1 = i := by omega
  simpa [State.readReg, hne, hv] using h (BitVec.ofNat 5 (i + 1))

end Sys2Proof.Machine
end

