-- ==== Sys2Proof/Laws/Ops.lean ====
section
/-!
SUPPORT. What each shared operation can do, said once: sequencing, the checks of a memory access, the end of an instruction,
fetching, the address map.
-/

namespace Sys2Proof.Machine

/-! ### Sequencing -/

section
variable {α β : Type}

@[simp] theorem andThen_next (a : α) (k : α → Answer β) : andThen (.next a) k = k a := rfl
@[simp] theorem andThen_fault (f : Fault) (k : α → Answer β) : andThen (.fault f) k = .fault f := rfl
@[simp] theorem andThen_refused (q : Refusal) (k : α → Answer β) : andThen (.refused q) k = .refused q := rfl

theorem andThen_eq_next {o : Answer α} {k : α → Answer β} {b : β} :
    andThen o k = .next b ↔ ∃ a, o = .next a ∧ k a = .next b := by
  cases o <;> simp

theorem andThen_eq_fault {o : Answer α} {k : α → Answer β} {f : Fault} :
    andThen o k = .fault f ↔ o = .fault f ∨ ∃ a, o = .next a ∧ k a = .fault f := by
  cases o <;> simp

theorem andThen_eq_refused {o : Answer α} {k : α → Answer β} {q : Refusal} :
    andThen o k = .refused q ↔ o = .refused q ∨ ∃ a, o = .next a ∧ k a = .refused q := by
  cases o <;> simp

end

/-! ### The state after a stop -/

@[simp] theorem State.after_next (s t : State) : s.after (.next t) = t := rfl
@[simp] theorem State.after_fault (s : State) (f : Fault) :
    s.after (.fault f) = { s with status := .faulted f } := rfl
@[simp] theorem State.after_refused (s : State) (q : Refusal) :
    s.after (.refused q) = { s with status := .refused q } := rfl

/-! ### The checks of a memory access -/

/-- The four ways the checks end, in their order. -/
theorem checkAccess_cases (s : State) (kind : AccessKind) (a : Word) :
    (aligned a = false ∧ checkAccess s kind a = .fault (addressError kind a)) ∨
    (aligned a = true ∧ s.params.inText a = true ∧ checkAccess s kind a = .refused (.textAccess a kind)) ∨
    (aligned a = true ∧ s.params.inText a = false ∧ s.params.dataMapped a = false ∧
      checkAccess s kind a = .refused (.unmappedAccess a kind)) ∨
    (aligned a = true ∧ s.params.inText a = false ∧ s.params.dataMapped a = true ∧
      checkAccess s kind a = .next ()) := by
  unfold checkAccess Params.regionOf raise refuse
  cases aligned a <;> cases s.params.inText a <;> cases s.params.dataMapped a <;> simp

theorem checkAccess_eq_next {s : State} {kind : AccessKind} {a : Word} :
    checkAccess s kind a = .next () ↔ aligned a = true ∧ s.params.regionOf a = .data := by
  unfold checkAccess Params.regionOf raise refuse
  cases aligned a <;> cases s.params.inText a <;> cases s.params.dataMapped a <;> simp

theorem checkAccess_eq_fault {s : State} {kind : AccessKind} {a : Word} {f : Fault} :
    checkAccess s kind a = .fault f ↔ aligned a = false ∧ f = addressError kind a := by
  unfold checkAccess Params.regionOf raise refuse
  cases aligned a <;> cases s.params.inText a <;> cases s.params.dataMapped a <;> simp [eq_comm]

theorem checkAccess_eq_refused {s : State} {kind : AccessKind} {a : Word} {q : Refusal} :
    checkAccess s kind a = .refused q ↔
      aligned a = true ∧ ((s.params.regionOf a = .text ∧ q = .textAccess a kind) ∨
        (s.params.regionOf a = .unmapped ∧ q = .unmappedAccess a kind)) := by
  unfold checkAccess Params.regionOf raise refuse
  cases aligned a <;> cases s.params.inText a <;> cases s.params.dataMapped a <;> simp [eq_comm]

/-- The checks look at the parameters alone, and not at their byte order. -/
theorem checkAccess_congr {s t : State} (h : ∀ a, t.params.regionOf a = s.params.regionOf a)
    (kind : AccessKind) (a : Word) : checkAccess t kind a = checkAccess s kind a := by
  simp only [checkAccess, h]

theorem memRead_eq_next {s : State} {a v : Word} :
    memRead s a = .next v ↔ aligned a = true ∧ s.params.regionOf a = .data ∧ v = s.readWord a := by
  simp only [memRead, andThen_eq_next, ← and_assoc, ← checkAccess_eq_next (kind := .load)]
  constructor
  · rintro ⟨u, h, hv⟩
    exact ⟨h, by simpa [eq_comm] using hv⟩
  · rintro ⟨h, rfl⟩
    exact ⟨(), h, rfl⟩

theorem memWrite_eq_next {s t : State} {a v : Word} :
    memWrite s a v = .next t ↔ aligned a = true ∧ s.params.regionOf a = .data ∧ t = s.writeWord a v := by
  simp only [memWrite, andThen_eq_next, ← and_assoc, ← checkAccess_eq_next (kind := .store)]
  constructor
  · rintro ⟨u, h, hv⟩
    exact ⟨h, by simpa [eq_comm] using hv⟩
  · rintro ⟨h, rfl⟩
    exact ⟨(), h, rfl⟩

/-! ### The end of an instruction -/

/-- Writing a register and advancing is exactly what `wroteRegister` says. -/
theorem wroteRegister_writeReg_advance (s : State) (rd : RegNum) (v : Word) :
    wroteRegister s (s.writeReg rd v).advance rd v := by
  refine ⟨fun r => ?_, fun a => ?_, ?_, ?_, ?_, ?_⟩
  · simp [State.readReg_writeReg]
  all_goals simp

/-- `wroteRegister` leaves nothing open: the state is the one `writeReg` and `advance` give. -/
theorem eq_of_wroteRegister {s t : State} {rd : RegNum} {v : Word} (h : wroteRegister s t rd v) :
    t = (s.writeReg rd v).advance := by
  obtain ⟨hr, -, hm, hp, hq, hs⟩ := h
  have hregs : t.regs = (s.writeReg rd v).advance.regs :=
    State.regs_ext (fun r => by rw [hr, State.advance_readReg, State.readReg_writeReg])
  have e1 : t.mem = (s.writeReg rd v).advance.mem := by simp [hm]
  have e2 : t.pc = (s.writeReg rd v).advance.pc := by simp [hp]
  have e3 : t.params = (s.writeReg rd v).advance.params := by simp [hq]
  have e4 : t.status = (s.writeReg rd v).advance.status := by simp [hs]
  generalize (s.writeReg rd v).advance = u at *
  cases t; cases u; simp_all

/-- Storing a word and advancing is what `storedWord` says. -/
theorem storedWord_writeWord_advance {s : State} (hm : s.mem.wf) (ea v : Word) :
    storedWord s (s.writeWord ea v).advance ea v := by
  refine ⟨?_, fun k hk => ?_, fun a ha => ?_, fun r => rfl, rfl, rfl, rfl⟩
  · exact Memory.readWord_writeWord_same hm _ _ _
  · rw [State.advance_mem, State.writeWord_mem, Memory.read_writeWord hm, if_pos (by omega)]
    congr 1
    omega
  · rw [State.advance_mem, State.writeWord_mem, Memory.read_writeWord hm, if_neg (by omega)]

theorem writeUnlessOverflow_true (i : Instr) (s : State) (rd : RegNum) (v : Word) :
    writeUnlessOverflow true i s rd v = .fault (.integerOverflow s.pc (encode i)) := rfl

theorem writeUnlessOverflow_false (i : Instr) (s : State) (rd : RegNum) (v : Word) :
    writeUnlessOverflow false i s rd v = .next (s.writeReg rd v).advance := rfl

theorem fitsSigned_iff (n : Int) : fitsSigned n = true ↔ -2147483648 ≤ n ∧ n ≤ 2147483647 := by
  simp [fitsSigned]

theorem addOverflows_iff (a b : Word) :
    addOverflows a b = true ↔ ¬ (-2147483648 ≤ a.toInt + b.toInt ∧ a.toInt + b.toInt ≤ 2147483647) := by
  rw [← fitsSigned_iff]; simp [addOverflows]

theorem subOverflows_iff (a b : Word) :
    subOverflows a b = true ↔ ¬ (-2147483648 ≤ a.toInt - b.toInt ∧ a.toInt - b.toInt ≤ 2147483647) := by
  rw [← fitsSigned_iff]; simp [subOverflows]

/-! ### Alignment -/

theorem aligned_iff (a : Word) : aligned a = true ↔ a.toNat % 4 = 0 := by simp [aligned]

/-- The four bytes of an aligned word do not pass the top of the address space. -/
theorem aligned_add_lt {a : Word} (h : aligned a = true) {k : Nat} (hk : k < 4) : a.toNat + k < 2 ^ 32 := by
  have := (aligned_iff a).mp h
  have := a.isLt
  omega

/-! ### The address map -/

theorem regionOf_eq_data {p : Params} {a : Word} :
    p.regionOf a = .data ↔ p.inText a = false ∧ p.dataMapped a = true := by
  unfold Params.regionOf
  cases p.inText a <;> cases p.dataMapped a <;> simp

theorem inText_iff (p : Params) (a : Word) :
    p.inText a = true ↔ p.textBase.toNat ≤ a.toNat ∧ a.toNat < p.textEnd := by
  simp [Params.inText]

/-- With the text aligned, the bytes of one aligned word are all in the same part of the address space. -/
theorem regionOf_word {p : Params} (hp : p.textAligned = true) {a : Word} (ha : aligned a = true) {k : Nat}
    (hk : k < 4) : p.regionOf (BitVec.ofNat 32 (a.toNat + k)) = p.regionOf a := by
  have hlt := aligned_add_lt ha hk
  have hal := (aligned_iff a).mp ha
  have htb : p.textBase.toNat % 4 = 0 := by simpa [Params.textAligned] using hp
  have hn : (BitVec.ofNat 32 (a.toNat + k)).toNat = a.toNat + k := by
    simp only [BitVec.toNat_ofNat]
    exact Nat.mod_eq_of_lt hlt
  have h1 : p.inText (BitVec.ofNat 32 (a.toNat + k)) = p.inText a := by
    rw [Bool.eq_iff_iff, inText_iff, inText_iff, hn, Params.textEnd]
    omega
  have h2 : p.dataMapped (BitVec.ofNat 32 (a.toNat + k)) = p.dataMapped a := by
    simp only [Params.dataMapped, hn]
    congr 1
    funext r
    rw [show (a.toNat + k) / 4 = a.toNat / 4 by omega]
  simp only [Params.regionOf, h1, h2]

/-- Data and text are disjoint under the constraints of R110: the check on each region says so for every address. -/
theorem not_inText_of_dataMapped {p : Params} (hp : p.wf = true) {a : Word} (ha : aligned a = true)
    (hd : p.dataMapped a = true) : p.inText a = false := by
  simp only [Params.wf, Bool.and_eq_true, List.all_eq_true] at hp
  obtain ⟨⟨htb, -⟩, hr⟩ := hp
  have htb : p.textBase.toNat % 4 = 0 := by simpa [Params.textAligned] using htb
  have hal := (aligned_iff a).mp ha
  obtain ⟨r, hrm, hc⟩ := List.any_eq_true.mp hd
  have hc : r.firstWord ≤ a.toNat / 4 ∧ a.toNat / 4 < r.firstWord + r.words := by
    simpa [DataRegion.covers] using hc
  have hoff := hr r hrm
  simp only [Params.regionOffText, Bool.or_eq_true, List.isEmpty_iff, beq_iff_eq, decide_eq_true_eq] at hoff
  rw [← Bool.not_eq_true, inText_iff]
  rcases hoff with ((h | h) | h) | h
  · simp only [Params.textEnd, h, List.length_nil]; omega
  · omega
  · omega
  · omega

/-! ### Fetching -/

/-- A fetch that answers gives the word of `PROGRAM` the pc names. -/
theorem fetch_eq_next {s : State} {w : Word} :
    fetch s = .next w ↔
      aligned s.pc = true ∧ s.params.inText s.pc = true ∧ s.params.program[s.fetchIndex]? = some w := by
  unfold fetch raise refuse
  cases aligned s.pc <;> cases s.params.inText s.pc <;> cases h : s.params.program[s.fetchIndex]? <;> simp

/-- In the text the index names a word. -/
theorem fetchIndex_lt {s : State} (h : s.params.inText s.pc = true) : s.fetchIndex < s.params.program.length := by
  have := (inText_iff _ _).mp h
  unfold State.fetchIndex
  unfold Params.textEnd at this
  omega

/-- In the text, with the pc aligned, a fetch answers. -/
theorem fetch_inText {s : State} (ha : aligned s.pc = true) (h : s.params.inText s.pc = true) :
    fetch s = .next (s.params.program[s.fetchIndex]'(fetchIndex_lt h)) :=
  fetch_eq_next.mpr ⟨ha, h, List.getElem?_eq_getElem (fetchIndex_lt h)⟩

theorem fetch_misaligned {s : State} (ha : aligned s.pc = false) : fetch s = .fault (.addressErrorFetch s.pc) := by
  simp [fetch, ha, raise]

theorem fetch_outside {s : State} (ha : aligned s.pc = true) (h : s.params.inText s.pc = false) :
    fetch s = .refused (.fetchOutsideText s.pc) := by
  simp [fetch, ha, h, refuse]

theorem decodeFetched_ok {w : Word} {i : Instr} (h : decode w = .ok i) : decodeFetched w = .next i := by
  simp [decodeFetched, h]

theorem decodeFetched_error {w : Word} {e : Reserved} (h : decode w = .error e) :
    decodeFetched w = .refused (.reservedInstruction w) := by
  simp [decodeFetched, h, refuse]

theorem decodeFetched_eq_next {w : Word} {i : Instr} : decodeFetched w = .next i ↔ decode w = .ok i := by
  unfold decodeFetched refuse
  cases decode w <;> simp

end Sys2Proof.Machine
end

