-- ==== Sys2Proof/Laws/Exec.lean ====
section
/-!
SUPPORT. What one instruction and one step can do, said once: every result about all instructions goes through these.
-/

namespace Sys2Proof.Machine

/-- An instruction that completes writes one register, or stores one word where data is mapped, and advances. -/
theorem exec_eq_next {i : Instr} {s t : State} (h : exec i s = .next t) :
    (∃ d v, regWritten i = some d ∧ t = (s.writeReg d v).advance) ∨
    (∃ rt rs imm, i = .sw rt rs imm ∧ aligned (effectiveAddress s rs imm) = true ∧
      s.params.regionOf (effectiveAddress s rs imm) = .data ∧
      t = (s.writeWord (effectiveAddress s rs imm) (s.readReg rt)).advance) := by
  cases i with
  | lw rt rs imm =>
    obtain ⟨v, -, hv⟩ := andThen_eq_next.mp h
    exact .inl ⟨rt, v, rfl, by simpa [writeAndAdvance, eq_comm] using hv⟩
  | sw rt rs imm =>
    obtain ⟨u, hu, ht⟩ := andThen_eq_next.mp h
    obtain ⟨ha, hd, rfl⟩ := memWrite_eq_next.mp hu
    exact .inr ⟨rt, rs, imm, rfl, ha, hd, by simpa [eq_comm] using ht⟩
  | add rd rs rt =>
    simp only [exec, execAdd] at h
    cases ho : addOverflows (s.readReg rs) (s.readReg rt) <;> rw [ho] at h
    · exact .inl ⟨rd, _, rfl, (Host.Outcome.next.inj h).symm⟩
    · cases h
  | sub rd rs rt =>
    simp only [exec, execSub] at h
    cases ho : subOverflows (s.readReg rs) (s.readReg rt) <;> rw [ho] at h
    · exact .inl ⟨rd, _, rfl, (Host.Outcome.next.inj h).symm⟩
    · cases h
  | addi rt rs imm =>
    simp only [exec, execAddi] at h
    cases ho : addOverflows (s.readReg rs) (sext32 imm) <;> rw [ho] at h
    · exact .inl ⟨rt, _, rfl, (Host.Outcome.next.inj h).symm⟩
    · cases h
  | sll rd rt n => exact .inl ⟨rd, _, rfl, (Host.Outcome.next.inj h).symm⟩
  | srl rd rt n => exact .inl ⟨rd, _, rfl, (Host.Outcome.next.inj h).symm⟩
  | sra rd rt n => exact .inl ⟨rd, _, rfl, (Host.Outcome.next.inj h).symm⟩
  | and rd rs rt => exact .inl ⟨rd, _, rfl, (Host.Outcome.next.inj h).symm⟩
  | or rd rs rt => exact .inl ⟨rd, _, rfl, (Host.Outcome.next.inj h).symm⟩
  | xor rd rs rt => exact .inl ⟨rd, _, rfl, (Host.Outcome.next.inj h).symm⟩
  | nor rd rs rt => exact .inl ⟨rd, _, rfl, (Host.Outcome.next.inj h).symm⟩
  | andi rt rs imm => exact .inl ⟨rt, _, rfl, (Host.Outcome.next.inj h).symm⟩
  | ori rt rs imm => exact .inl ⟨rt, _, rfl, (Host.Outcome.next.inj h).symm⟩

/-- The instruction the pc names, when there is one. -/
theorem fetchInstr_eq_next {s : State} {i : Instr} :
    fetchInstr s = .next i ↔ ∃ w, fetch s = .next w ∧ decode w = .ok i := by
  simp only [fetchInstr, andThen_eq_next, decodeFetched_eq_next]

/-- The ways a step answers a next state: a final run answers itself, a running one at its end becomes final, and else it
executes the instruction the pc names. -/
theorem step_eq_next {s t : State} (h : step s = .next t) :
    (s.status = .final ∧ t = s) ∨
    (s.status = .running ∧ s.atEnd = true ∧ t = s.finish) ∨
    (s.status = .running ∧ s.atEnd = false ∧ ∃ i, fetchInstr s = .next i ∧ exec i s = .next t) := by
  unfold step at h
  by_cases hr : s.status = .running
  · rw [if_pos hr] at h
    cases he : s.atEnd
    · rw [he] at h
      exact .inr (.inr ⟨hr, rfl, andThen_eq_next.mp h⟩)
    · rw [he] at h
      exact .inr (.inl ⟨hr, rfl, (Host.Outcome.next.inj h).symm⟩)
  · rw [if_neg hr] at h
    unfold answerOfStatus at h
    cases hs : s.status <;> simp only [hs] at h hr
    · exact absurd trivial hr
    · exact .inl ⟨rfl, (Host.Outcome.next.inj h).symm⟩
    · cases h
    · cases h

/-- A running state that is not at its end runs the instruction the pc names. -/
theorem step_running {s : State} (hr : s.status = .running) (he : s.atEnd = false) :
    step s = andThen (fetchInstr s) (fun i => exec i s) := by
  simp [step, hr, he]

end Sys2Proof.Machine
end

