-- ==== Sys2Proof/Laws/PerInstr.lean ====
section
/-!
SUPPORT. One lemma per constructor about the instruction as syntax: its word has the bits its own row of the match and mask
table (spec/30_encoding.md R48) fixes.
-/

namespace Sys2Proof.Laws

/-- The row of the table that names the instruction matches its word. -/
def EncodesRow.Statement (i : Instr) : Prop :=
  ∃ row ∈ opcodeRows, row.name = mnemonic i ∧ encode i &&& row.mask = row.value

theorem bv6_and_ones (x : BitVec 6) : x &&& 63#6 = x := BitVec.and_allOnes

/-- The bits of an R-format word that a mask without the register fields keeps. -/
theorem rWord_mask (rs rt rd : RegNum) (f : BitVec 6) :
    rWord 0 rs rt rd 0 f &&& 0xFC0007FF#32 = rWord 0 0 0 0 0 f := by
  have hm : (0xFC0007FF#32 : Word) = rWord 63 0 0 0 31 63 := by decide
  rw [hm, rWord_and]
  simp [bv6_and_ones]

/-- The bits of a shift's word that a mask without `rt`, `rd` and `shamt` keeps. -/
theorem shiftWord_mask (rt rd : RegNum) (h : Shamt) (f : BitVec 6) :
    rWord 0 0 rt rd h f &&& 0xFFE0003F#32 = rWord 0 0 0 0 0 f := by
  have hm : (0xFFE0003F#32 : Word) = rWord 63 31 0 0 0 63 := by decide
  rw [hm, rWord_and]
  simp [bv6_and_ones]

/-- The bits of an I-format word that the mask of `op` keeps. -/
theorem iWord_mask (op : BitVec 6) (rs rt : RegNum) (imm : Imm) :
    iWord op rs rt imm &&& 0xFC000000#32 = iWord op 0 0 0 := by
  have hm : (0xFC000000#32 : Word) = iWord 63 0 0 0 := by decide
  rw [hm, iWord_and]
  simp [bv6_and_ones]

theorem EncodesRow.sll (rd rt : RegNum) (shamt : Shamt) : EncodesRow.Statement (.sll rd rt shamt) :=
  ⟨⟨"sll", 0xFFE0003F#32, 0x00000000#32⟩, by decide, rfl, shiftWord_mask rt rd shamt 0⟩

theorem EncodesRow.srl (rd rt : RegNum) (shamt : Shamt) : EncodesRow.Statement (.srl rd rt shamt) :=
  ⟨⟨"srl", 0xFFE0003F#32, 0x00000002#32⟩, by decide, rfl, shiftWord_mask rt rd shamt 2⟩

theorem EncodesRow.sra (rd rt : RegNum) (shamt : Shamt) : EncodesRow.Statement (.sra rd rt shamt) :=
  ⟨⟨"sra", 0xFFE0003F#32, 0x00000003#32⟩, by decide, rfl, shiftWord_mask rt rd shamt 3⟩

theorem EncodesRow.add (rd rs rt : RegNum) : EncodesRow.Statement (.add rd rs rt) :=
  ⟨⟨"add", 0xFC0007FF#32, 0x00000020#32⟩, by decide, rfl, rWord_mask rs rt rd 32⟩

theorem EncodesRow.sub (rd rs rt : RegNum) : EncodesRow.Statement (.sub rd rs rt) :=
  ⟨⟨"sub", 0xFC0007FF#32, 0x00000022#32⟩, by decide, rfl, rWord_mask rs rt rd 34⟩

theorem EncodesRow.and (rd rs rt : RegNum) : EncodesRow.Statement (.and rd rs rt) :=
  ⟨⟨"and", 0xFC0007FF#32, 0x00000024#32⟩, by decide, rfl, rWord_mask rs rt rd 36⟩

theorem EncodesRow.or (rd rs rt : RegNum) : EncodesRow.Statement (.or rd rs rt) :=
  ⟨⟨"or", 0xFC0007FF#32, 0x00000025#32⟩, by decide, rfl, rWord_mask rs rt rd 37⟩

theorem EncodesRow.xor (rd rs rt : RegNum) : EncodesRow.Statement (.xor rd rs rt) :=
  ⟨⟨"xor", 0xFC0007FF#32, 0x00000026#32⟩, by decide, rfl, rWord_mask rs rt rd 38⟩

theorem EncodesRow.nor (rd rs rt : RegNum) : EncodesRow.Statement (.nor rd rs rt) :=
  ⟨⟨"nor", 0xFC0007FF#32, 0x00000027#32⟩, by decide, rfl, rWord_mask rs rt rd 39⟩

theorem EncodesRow.addi (rt rs : RegNum) (imm : Imm) : EncodesRow.Statement (.addi rt rs imm) :=
  ⟨⟨"addi", 0xFC000000#32, 0x20000000#32⟩, by decide, rfl, iWord_mask 8 rs rt imm⟩

theorem EncodesRow.andi (rt rs : RegNum) (imm : Imm) : EncodesRow.Statement (.andi rt rs imm) :=
  ⟨⟨"andi", 0xFC000000#32, 0x30000000#32⟩, by decide, rfl, iWord_mask 12 rs rt imm⟩

theorem EncodesRow.ori (rt rs : RegNum) (imm : Imm) : EncodesRow.Statement (.ori rt rs imm) :=
  ⟨⟨"ori", 0xFC000000#32, 0x34000000#32⟩, by decide, rfl, iWord_mask 13 rs rt imm⟩

theorem EncodesRow.lw (rt rs : RegNum) (imm : Imm) : EncodesRow.Statement (.lw rt rs imm) :=
  ⟨⟨"lw", 0xFC000000#32, 0x8C000000#32⟩, by decide, rfl, iWord_mask 35 rs rt imm⟩

theorem EncodesRow.sw (rt rs : RegNum) (imm : Imm) : EncodesRow.Statement (.sw rt rs imm) :=
  ⟨⟨"sw", 0xFC000000#32, 0xAC000000#32⟩, by decide, rfl, iWord_mask 43 rs rt imm⟩

end Sys2Proof.Laws
end

