-- ==== Sys2Proof/Laws/Run.lean ====
section
/-!
SUPPORT. Runs unfolded one step at a time; a state a tick leaves alone; and that the host's placing of a word is what fetch reads.
-/

namespace Sys2Proof.Machine

@[simp] theorem runSteps_zero (s : State) : runSteps 0 s = .next s := rfl

theorem runSteps_succ (k : Nat) (s : State) : runSteps (k + 1) s = andThen (step s) (runSteps k) := by
  have h : core.step s = step s := rfl
  simp only [runSteps, Host.Core.run, h]
  cases step s <;> rfl

@[simp] theorem ticks_zero (s : State) : ticks 0 s = s := rfl
theorem ticks_succ (k : Nat) (s : State) : ticks (k + 1) s = ticks k (tick s) := rfl

/-- A state that a tick leaves alone stays for good. -/
theorem ticks_of_tick_eq {s : State} (h : tick s = s) (k : Nat) : ticks k s = s := by
  induction k with
  | zero => rfl
  | succ k ih => rw [ticks_succ, h, ih]

/-- A run from a state that answers no next state goes nowhere. -/
theorem eq_of_runSteps {s t : State} {k : Nat} (h : ∀ u, step s ≠ .next u) (hk : runSteps k s = .next t) : t = s := by
  cases k with
  | zero => exact (Host.Outcome.next.inj hk).symm
  | succ k =>
    rw [runSteps_succ] at hk
    obtain ⟨u, hu, -⟩ := andThen_eq_next.mp hk
    exact absurd hu (h u)

/-- Clearing the two low bits gives a multiple of 4. -/
theorem aligned_clear (a : Word) : aligned (a &&& ~~~3#32) = true := by
  have h : (a &&& ~~~3#32) &&& 3#32 = 0#32 := by
    rw [BitVec.and_assoc]
    simp
  have h2 := congrArg BitVec.toNat h
  rw [BitVec.toNat_and] at h2
  have h3 : (a &&& ~~~3#32).toNat &&& (2 ^ 2 - 1) = 0 := h2
  rw [Nat.and_two_pow_sub_one_eq_mod] at h3
  exact (aligned_iff _).mpr h3

/-- The word the host places is the word the next step fetches, whatever the state. -/
theorem fetch_withFetchWord (s : State) (nbits w : Nat) :
    fetch (s.withFetchWord nbits w) = .next (tableWord nbits w) ∧ (s.withFetchWord nbits w).status = .running ∧
      (s.withFetchWord nbits w).atEnd = false := by
  unfold State.withFetchWord
  split
  · rename_i h
    simp only [Bool.and_eq_true, Bool.or_eq_true] at h
    obtain ⟨ha, h⟩ := h
    have hr : s.params.textBase.toNat ≤ s.pc.toNat ∧ s.pc.toNat ≤ s.params.textEnd := by
      rcases h with h | h
      · have := (inText_iff _ _).mp h
        omega
      · have : s.pc.toNat = s.params.textEnd := by simpa [State.atEnd] using h
        unfold Params.textEnd at *
        omega
    have hi : s.fetchIndex ≤ s.params.program.length := by
      unfold State.fetchIndex Params.textEnd at *
      omega
    have hlen : (s.params.program.take s.fetchIndex).length = s.fetchIndex := by simp [hi]
    have hpc : s.pc.toNat < s.params.textBase.toNat +
        4 * (s.params.program.take s.fetchIndex ++ tableWord nbits w :: s.params.program.drop (s.fetchIndex + 1)).length := by
      rw [List.length_append, hlen, List.length_cons]
      unfold State.fetchIndex
      omega
    refine ⟨fetch_eq_next.mpr ⟨ha, (inText_iff _ _).mpr ⟨hr.1, hpc⟩, ?_⟩, rfl, ?_⟩
    · show (_ ++ _)[s.fetchIndex]? = _
      rw [List.getElem?_append_right (by omega), hlen]
      simp
    · simp only [State.atEnd, Params.textEnd, beq_eq_false_iff_ne]
      omega
  · refine ⟨fetch_eq_next.mpr ⟨aligned_clear s.pc, (inText_iff _ _).mpr ⟨le_refl _, ?_⟩, ?_⟩, rfl, ?_⟩
    · simp [Params.textEnd]
    · simp [State.fetchIndex]
    · simp [State.atEnd, Params.textEnd]

end Sys2Proof.Machine
end

