-- ==== Sys2Proof/Tests/Slice0.lean ====
section
/-!
SUPPORT. The model's own tests. Expected values are those of spec/95_test_vectors.md and of the examples in the instruction
rules; each group names its source. Then one witness for each statement with hypotheses, with one for each of its clauses.
-/

namespace Sys2Proof.Machine.Tests

/-! ### Small states -/

/-- The spec's example parameters (00_scope.md section 4): text at 0x00400000, data words 0x10010000 to 0x1001FFFC. -/
def params (program : List Word) : Params where
  program := program
  textBase := 0x00400000#32
  dataRegions := [⟨0x04004000, 0x4000⟩]
  byteOrder := .big

/-- Registers and data words set on a launch of a program. -/
def start (program : List Word) (regs cells : List (Nat × Word)) : State :=
  cells.foldl (fun s c => s.writeWord (BitVec.ofNat 32 c.1) c.2)
    (regs.foldl (fun s c => s.writeReg (BitVec.ofNat 5 c.1) c.2)
      (State.launch (params program) (Vector.replicate 31 0#32) []))

/-- The state an outcome answers. -/
def nextOf {α : Type} : Answer α → Option α
  | .next a => some a
  | _ => none

/-- The fault an outcome answers. -/
def faultOf {α : Type} : Answer α → Option Fault
  | .fault f => some f
  | _ => none

/-- The refusal an outcome answers. -/
def refusalOf {α : Type} : Answer α → Option Refusal
  | .refused q => some q
  | _ => none

theorem eq_next_of_nextOf {α : Type} {o : Answer α} {a : α} (h : nextOf o = some a) : o = .next a := by
  cases o <;> simp_all [nextOf]

theorem eq_fault_of_faultOf {α : Type} {o : Answer α} {f : Fault} (h : faultOf o = some f) : o = .fault f := by
  cases o <;> simp_all [faultOf]

theorem eq_refused_of_refusalOf {α : Type} {o : Answer α} {q : Refusal} (h : refusalOf o = some q) : o = .refused q := by
  cases o <;> simp_all [refusalOf]

/-- Register `r` after one step of the one-word program `w`, from registers and data words. -/
def regAfter (w : Word) (r : RegNum) (regs cells : List (Nat × Word)) : Option Word :=
  (nextOf (step (start [w] regs cells))).map (fun t => t.readReg r)

/-- The data word at `a` after such a step. -/
def wordAfter (w a : Word) (regs cells : List (Nat × Word)) : Option Word :=
  (nextOf (step (start [w] regs cells))).map (fun t => t.readWord a)

/-! ### Checks of WellFormed, each with a term it refuses -/

theorem test_params_ok : (params [0#32]).wf = true := by decide
theorem test_textAligned_refuses : (⟨[], 2#32, [], .big⟩ : Params).textAligned = false := by decide
theorem test_textFits_refuses : (⟨[0#32], 0xFFFFFFFC#32, [], .big⟩ : Params).textFits = false := by decide
theorem test_regionOffText_refuses : (⟨[0#32], 8#32, [⟨0, 3⟩], .big⟩ : Params).wf = false := by decide
theorem test_wellFormedWord_refuses_shamt : wellFormedWord 0x02328060#32 = false := by decide
theorem test_wellFormedWord_refuses_rs : wellFormedWord 0x00314080#32 = false := by decide
theorem test_wellFormedWord_refuses_op : wellFormedWord 0xFFFFFFFF#32 = false := by decide
theorem test_signedConstant : signedConstant 32767 = true ∧ signedConstant 32768 = false ∧ signedConstant (-32769) = false := by
  decide
theorem test_unsignedConstant : unsignedConstant 65535 = true ∧ unsignedConstant 65536 = false ∧ unsignedConstant (-1) = false := by
  decide
theorem test_shiftConstant : shiftConstant 31 = true ∧ shiftConstant 32 = false ∧ shiftConstant (-1) = false := by decide

/-! ### Decoding: each constructor from a word written out bit by bit (30_encoding.md R41, R43; 95 V-D, S1 to S5) -/

theorem test_decode_add : decode 0b00000010001100101000000000100000#32 = .ok (.add 16 17 18) := by decide
theorem test_decode_sub : decode 0b00000001011011010100000000100010#32 = .ok (.sub 8 11 13) := by decide
theorem test_decode_and : decode 0b00000010001100101001100000100100#32 = .ok (.and 19 17 18) := by decide
theorem test_decode_or : decode 0b00000010001100101010000000100101#32 = .ok (.or 20 17 18) := by decide
theorem test_decode_xor : decode 0b00000010001100101010100000100110#32 = .ok (.xor 21 17 18) := by decide
theorem test_decode_nor : decode 0b00000001001000000100000000100111#32 = .ok (.nor 8 9 0) := by decide
theorem test_decode_sll : decode 0b00000000000100010100000010000000#32 = .ok (.sll 8 17 2) := by decide
theorem test_decode_srl : decode 0b00000000000100011001000010000010#32 = .ok (.srl 18 17 2) := by decide
theorem test_decode_sra : decode 0b00000000000100011001100010000011#32 = .ok (.sra 19 17 2) := by decide
theorem test_decode_addi : decode 0b00100010011010001111111111110100#32 = .ok (.addi 8 19 0xFFF4#16) := by decide
theorem test_decode_andi : decode 0b00110001001010000000000011111111#32 = .ok (.andi 8 9 0x00FF#16) := by decide
theorem test_decode_ori : decode 0b00110101001010001111111100000000#32 = .ok (.ori 8 9 0xFF00#16) := by decide
theorem test_decode_lw : decode 0b10001100000010100000000000100000#32 = .ok (.lw 10 0 0x0020#16) := by decide
theorem test_decode_sw : decode 0b10101101001100010000000000000100#32 = .ok (.sw 17 9 0x0004#16) := by decide

/-- Reserved words of V-D: variable shift, syscall, slt, j, beq, addiu, xori, lb. -/
theorem test_decode_reserved :
    [0x00000001#32, 0x00000004#32, 0x0000000C#32, 0x0232802A#32, 0x08100000#32, 0x11090003#32, 0x25080001#32, 0x39080001#32,
      0x81090000#32].all (fun w => !wellFormedWord w && (decode w).toOption.isNone) = true := by decide

theorem test_encode_words : encode (.add 16 17 18) = 0x02328020#32 ∧ encode (.sra 19 17 2) = 0x00119883#32 ∧
    encode (.addi 8 19 0xFFF4#16) = 0x2268FFF4#32 ∧ encode (.sw 17 9 4) = 0xAD310004#32 := by decide

theorem test_decodeBytes_big : decodeBytes .big [0x02#8, 0x32#8, 0x80#8, 0x20#8, 7#8] = .ok (.add 16 17 18, [7#8]) := by decide
theorem test_decodeBytes_little : decodeBytes .little [0x20#8, 0x80#8, 0x32#8, 0x02#8] = .ok (.add 16 17 18, []) := by decide
theorem test_decodeBytes_truncated : decodeBytes .big [0#8, 0#8, 0#8] = .error .truncated := by decide
theorem test_decodeTableWord : decodeTableWord 32 0x8C000000 = some (.lw 0 0 0) ∧ decodeTableWord 32 0x02328021 = none := by
  decide

/-! ### Register names and assembly (10_state.md R12; 30_encoding.md R55 to R58) -/

theorem test_regOfName : regOfName "$t0" = some 8 ∧ regOfName "$t9" = some 25 ∧ regOfName "$s7" = some 23 ∧
    regOfName "$zero" = some 0 ∧ regOfName "$8" = some 8 ∧ regOfName "r8" = some 8 ∧ regOfName "$s8" = some 30 ∧
    regOfName "$x" = none := by decide
theorem test_assemble_shift : assemble ⟨"sll", [.reg "$t0", .reg "$s1", .const 2]⟩ = .ok (.sll 8 17 2) := by decide
theorem test_assemble_memory : assemble ⟨"sw", [.reg "$s1", .mem 4 "$t1"]⟩ = .ok (.sw 17 9 4) := by decide
theorem test_assemble_negative : assemble ⟨"addi", [.reg "$t0", .reg "$s3", .const (-12)]⟩ = .ok (.addi 8 19 0xFFF4#16) := by
  decide
theorem test_assemble_rejects : assemble ⟨"sll", [.reg "$t0", .reg "$s1", .const 32]⟩ = .error (.constantOutOfRange 32) ∧
    assemble ⟨"nop", []⟩ = .error (.unknownMnemonic "nop") ∧ assemble ⟨"and", []⟩ = .error (.wrongOperands "and") ∧
    assemble ⟨"lw", [.reg "$q", .mem 0 "$t0"]⟩ = .error (.unknownRegister "$q") := by decide

/-! ### Instructions (95 V-A, V-L, V-S, V-M), one step each -/

/-- 0x7FFFFFFF + 0x80000000 = 0xFFFFFFFF; the word is `add $s0, $s1, $s2`. -/
theorem test_add : regAfter 0x02328020#32 16 [(17, 0x7FFFFFFF#32), (18, 0x80000000#32)] [] = some 0xFFFFFFFF#32 := by decide

theorem test_add_overflow :
    faultOf (step (start [0x02328020#32] [(17, 0x7FFFFFFF#32), (18, 1#32)] [])) =
      some (.integerOverflow 0x00400000#32 0x02328020#32) := by decide

/-- 5 - (-12) = 17; the word is `sub $t0, $t3, $t5`. -/
theorem test_sub : regAfter 0x016D4022#32 8 [(11, 5#32), (13, 0xFFFFFFF4#32)] [] = some 0x11#32 := by decide

/-- Negating the most negative number. -/
theorem test_sub_overflow :
    faultOf (step (start [0x016D4022#32] [(11, 0#32), (13, 0x80000000#32)] [])) =
      some (.integerOverflow 0x00400000#32 0x016D4022#32) := by decide

/-- `addi $t0, $t1, -32768` at 0x80008000, the lowest value that does not overflow. -/
theorem test_addi : regAfter 0x21288000#32 8 [(9, 0x80008000#32)] [] = some 0x80000000#32 := by decide

theorem test_addi_overflow :
    faultOf (step (start [0x21288000#32] [(9, 0x80007FFF#32)] [])) =
      some (.integerOverflow 0x00400000#32 0x21288000#32) := by decide

theorem test_and : regAfter 0x02329824#32 19 [(17, 0xFFFF0000#32), (18, 0x46A1F0B7#32)] [] = some 0x46A10000#32 := by decide
theorem test_or : regAfter 0x0232A025#32 20 [(17, 0xFFFF0000#32), (18, 0x46A1F0B7#32)] [] = some 0xFFFFF0B7#32 := by decide
theorem test_xor : regAfter 0x0232A826#32 21 [(17, 0xFFFF0000#32), (18, 0x46A1F0B7#32)] [] = some 0xB95EF0B7#32 := by decide
theorem test_nor : regAfter 0x0232B027#32 22 [(17, 0xFFFF0000#32), (18, 0x46A1F0B7#32)] [] = some 0x00000F48#32 := by decide

/-- Bit 15 of the constant does not extend: `andi $t0, $t1, 0xFFFF`. -/
theorem test_andi : regAfter 0x3128FFFF#32 8 [(9, 0xFFFFFFFF#32)] [] = some 0x0000FFFF#32 := by decide
theorem test_ori : regAfter 0x34088000#32 8 [] [] = some 0x00008000#32 := by decide

theorem test_sll : regAfter 0x00114080#32 8 [(17, 0x80000003#32)] [] = some 0x0000000C#32 := by decide
theorem test_srl : regAfter 0x00119082#32 18 [(17, 0x80000003#32)] [] = some 0x20000000#32 := by decide
theorem test_sra : regAfter 0x00119883#32 19 [(17, 0x80000003#32)] [] = some 0xE0000000#32 := by decide
/-- Source and destination the same, the longest shift: `sra $t0, $t0, 31`. -/
theorem test_sra_same_register : regAfter 0x000847C3#32 8 [(8, 0xFFFFFFFF#32)] [] = some 0xFFFFFFFF#32 := by decide

/-- A negative offset: `lw $t0, -4($sp)`. -/
theorem test_lw : regAfter 0x8FA8FFFC#32 8 [(29, 0x10010010#32)] [(0x1001000C, 0xCAFEBABE#32)] = some 0xCAFEBABE#32 := by decide

/-- The address comes from the old value: `lw $t0, 0($t0)`. -/
theorem test_lw_same_register : regAfter 0x8D080000#32 8 [(8, 0x10010000#32)] [(0x10010000, 7#32)] = some 7#32 := by decide

theorem test_sw : wordAfter 0xAD310004#32 0x10010004#32 [(9, 0x10010000#32), (17, 0x12345678#32)] [] = some 0x12345678#32 := by
  decide

/-- Storing zeros over a word removes its bytes from the list: memory stays canonical. -/
theorem test_sw_zero_is_canonical :
    (nextOf (step (start [0xAD000000#32] [(8, 0x10010000#32)] [(0x10010000, 0xFFFFFFFF#32)]))).map (fun t => t.mem) = some [] := by
  decide

/-- The stops of V-M: misaligned load with destination 0, misaligned store into the text, text, unmapped after a wrap. -/
theorem test_memory_stops :
    faultOf (step (start [0x8D000001#32] [(8, 0x10010000#32)] [])) = some (.addressErrorLoad 0x10010001#32) ∧
    faultOf (step (start [0xAD090001#32] [(8, 0x00400000#32)] [])) = some (.addressErrorStore 0x00400001#32) ∧
    refusalOf (step (start [0xAD090000#32] [(8, 0x00400000#32)] [])) = some (.textAccess 0x00400000#32 .store) ∧
    refusalOf (step (start [0x8D090004#32] [(8, 0xFFFFFFFC#32)] [])) = some (.unmappedAccess 0#32 .load) := by decide

/-- The whole state after one step, register 0 discarded: `add $zero, $t0, $t1` with 1 and 2 changes only the pc. -/
theorem test_add_to_zero :
    nextOf (step (start [0x01090020#32] [(8, 1#32), (9, 2#32)] [])) =
      some { start [0x01090020#32] [(8, 1#32), (9, 2#32)] [] with pc := 0x00400004#32 } := by decide

/-- A reserved word (95 P5), and a step of the empty program (95 P6). -/
theorem test_reserved_and_empty :
    refusalOf (step (start [0x3C081001#32] [] [])) = some (.reservedInstruction 0x3C081001#32) ∧
    (nextOf (step (start [] [] []))).map (fun t => t.status) = some .final := by decide

/-- What the host reads of a big-endian word in the text and of one in data. -/
theorem test_hostByte :
    (start [0x02328020#32] [] [(0x10010000, 0xCAFEBABE#32)]).hostByte 0x00400001#32 = some 0x32#8 ∧
    (start [0x02328020#32] [] [(0x10010000, 0xCAFEBABE#32)]).hostByte 0x10010003#32 = some 0xBE#8 ∧
    (start [0x02328020#32] [] [(0x10010000, 0xCAFEBABE#32)]).hostByte 0x20000000#32 = none := by decide

/-- From reset, the host's one word is run by the next step: the rows `sll`, `lw`, `sw` with zero operands. -/
theorem test_withFetchWord_runs :
    ((nextOf (step (State.reset.withFetchWord 32 0))).map (fun t => t.pc),
      (nextOf (step (State.reset.withFetchWord 32 0x8C000000))).map (fun t => t.pc),
      (nextOf (step (State.reset.withFetchWord 32 0xAC000000))).map (fun t => t.pc)) =
    (some 0x00400004#32, some 0x00400004#32, some 0x00400004#32) := by decide

theorem test_withFetchWord_keeps_inv : (State.reset.withFetchWord 32 0x8C000000).inv := by decide

/-! ### Witnesses: for each statement with hypotheses, a state and operands that meet them, clause by clause -/

/-- EncodeOfDecode, DecodeAgreesWithMatchTable. -/
theorem test_witness_decoded : decode 0x2268FFF4#32 = .ok (.addi 8 19 0xFFF4#16) := by decide

/-- DecodeAgreesWithMatchTable's second clause, MatchPatternsDisjoint. -/
theorem test_witness_row :
    (⟨"sw", 0xFC000000#32, 0xAC000000#32⟩ : OpcodeRow) ∈ opcodeRows ∧
      rowMatches ⟨"sw", 0xFC000000#32, 0xAC000000#32⟩ 0xAD310004#32 = true := by decide

/-- MustBeZeroFieldsRefused, both clauses, at the fields' least and greatest values; the reserved words of AddInstruction to
SraInstruction. -/
theorem test_witness_mustBeZero :
    (32#6 ∈ [32#6, 34#6, 36#6, 37#6, 38#6, 39#6] ∧ (1#5 : Shamt) ≠ 0#5) ∧ (39#6 ∈ [32#6, 34#6, 36#6, 37#6, 38#6, 39#6] ∧ (31#5 : Shamt) ≠ 0#5) ∧
    (0#6 ∈ [0#6, 2#6, 3#6] ∧ (1#5 : RegNum) ≠ 0#5) ∧ (3#6 ∈ [0#6, 2#6, 3#6] ∧ (31#5 : RegNum) ≠ 0#5) := by decide

/-- UnlistedWordRefused, RefusalChangesOnlyStatus, RefusalsAreExactlyTheListedOnes. -/
theorem test_witness_unlisted :
    (start [0x3C081001#32] [] []).status = .running ∧ (start [0x3C081001#32] [] []).atEnd = false ∧
    fetch (start [0x3C081001#32] [] []) = .next 0x3C081001#32 ∧ wellFormedWord 0x3C081001#32 = false ∧
    step (start [0x3C081001#32] [] []) = .refused (.reservedInstruction 0x3C081001#32) :=
  ⟨by decide, by decide, eq_next_of_nextOf (by decide), by decide, eq_refused_of_refusalOf (by decide)⟩

/-- ZeroWordOnlyAdvancesPc. -/
theorem test_witness_zeroWord :
    (start [0#32] [] []).status = .running ∧ (start [0#32] [] []).atEnd = false ∧ fetch (start [0#32] [] []) = .next 0#32 :=
  ⟨by decide, by decide, eq_next_of_nextOf (by decide)⟩

/-- StepRunsDecodedInstruction, and the last clause of StepChecksInOrder with a word that decodes. -/
theorem test_witness_stepRuns :
    (start [0#32, 0x02328020#32] [] []).status = .running ∧
    aligned { start [0#32, 0x02328020#32] [] [] with pc := 0x00400004#32 }.pc = true ∧
    (params [0#32, 0x02328020#32]).inText 0x00400004#32 = true ∧
    (params [0#32, 0x02328020#32]).program[(0x00400004 - 0x00400000) / 4]? = some 0x02328020#32 ∧
    decode 0x02328020#32 = .ok (.add 16 17 18) := by decide

/-- StepChecksInOrder: at the end; misaligned; outside the text on either side; at its last word, and one that is reserved. -/
theorem test_witness_stepOrder :
    (0x00400004#32).toNat = (params [0#32]).textEnd ∧
    ((0x00400002#32).toNat ≠ (params [0#32]).textEnd ∧ aligned 0x00400002#32 = false) ∧
    ((0x00400008#32).toNat ≠ (params [0#32]).textEnd ∧ aligned 0x00400008#32 = true ∧ (params [0#32]).inText 0x00400008#32 = false) ∧
    ((0x003FFFFC#32).toNat ≠ (params [0#32]).textEnd ∧ aligned 0x003FFFFC#32 = true ∧ (params [0#32]).inText 0x003FFFFC#32 = false) ∧
    (aligned 0x00400000#32 = true ∧ (params [0#32]).inText 0x00400000#32 = true) ∧
    decode 0x00000001#32 = .error (.unlistedFunct 1) := by decide

/-- EndOfRunIsFinal: both clauses. -/
theorem test_witness_end :
    ((start [] [] []).status = .running ∧ (start [] [] []).pc.toNat = (start [] [] []).params.textEnd) ∧
    (start [] [] []).finish.status = .final := by decide

/-- CompletedInstructionAdvancesPc, OnlyListedStateChanges, StepKeepsInvariant, FetchStopsUnreachable, EveryRunEnds: a state with the
invariant that runs, is not at its end, and whose step answers a next state. -/
theorem test_witness_running :
    (start [0x02328020#32] [] [(0x10010000, 7#32)]).inv ∧ (start [0x02328020#32] [] [(0x10010000, 7#32)]).status = .running ∧
    (start [0x02328020#32] [] [(0x10010000, 7#32)]).atEnd = false ∧
    step (start [0x02328020#32] [] [(0x10010000, 7#32)]) = .next (start [0x02328020#32] [] [(0x10010000, 7#32)]).advance ∧
    exec (.add 16 17 18) (start [0x02328020#32] [] [(0x10010000, 7#32)]) =
      .next (start [0x02328020#32] [] [(0x10010000, 7#32)]).advance :=
  ⟨by decide, by decide, by decide, eq_next_of_nextOf (by decide), eq_next_of_nextOf (by decide)⟩

/-- WordsExecuteInAddressOrder, after as many steps as words are left. -/
theorem test_witness_addressOrder :
    (start [0#32] [] []).inv ∧ (start [0#32] [] []).status = .running ∧ 1 ≤ (start [0#32] [] []).remaining ∧
    runSteps 1 (start [0#32] [] []) = .next (start [0#32] [] []).advance :=
  ⟨by decide, by decide, by decide, eq_next_of_nextOf (by decide)⟩

/-- LaunchState: a launch; and `DATA_MAPPED` at the first word, the last, and the ones beside them. -/
theorem test_witness_launch : (start [0#32] [] []).isLaunch :=
  ⟨params [0#32], Vector.replicate 31 0#32, [], by decide, by decide, rfl, by decide⟩

theorem test_witness_mapped :
    (params [0#32]).dataMapped 0x10010000#32 = true ∧ (params [0#32]).dataMapped 0x1001FFFC#32 = true ∧
    (params [0#32]).dataMapped 0x1000FFFC#32 = false ∧ (params [0#32]).dataMapped 0x10020000#32 = false := by decide

/-- RegisterZeroHardwired: an instruction with a destination that completes, one that faults, one that is refused. -/
theorem test_witness_destination :
    regWritten (.lw 8 9 0) ≠ none ∧
    nextOf (exec (.lw 8 9 0) (start [] [(9, 0x10010000#32)] [])) ≠ none ∧
    faultOf (exec (.lw 8 9 1) (start [] [(9, 0x10010000#32)] [])) ≠ none ∧
    refusalOf (exec (.lw 8 9 0) (start [] [(9, 0x20000000#32)] [])) ≠ none := by decide

/-- ResultDependsOnlyOnRegistersRead: two states that differ in a register `add` does not read. -/
theorem test_witness_registersRead :
    (∀ r ∈ regsRead (.add 8 9 10), (start [] [(9, 1#32), (11, 5#32)] []).readReg r = (start [] [(9, 1#32)] []).readReg r) ∧
    (start [] [(9, 1#32), (11, 5#32)] []).pc = (start [] [(9, 1#32)] []).pc ∧
    (start [] [(9, 1#32), (11, 5#32)] []).mem = (start [] [(9, 1#32)] []).mem ∧
    (start [] [(9, 1#32), (11, 5#32)] []).params = (start [] [(9, 1#32)] []).params ∧
    (start [] [(9, 1#32), (11, 5#32)] []).status = (start [] [(9, 1#32)] []).status ∧
    (start [] [(9, 1#32), (11, 5#32)] []).regs ≠ (start [] [(9, 1#32)] []).regs := by decide

/-- AddInstruction, SubInstruction, AddiInstruction: sums and differences at both ends of the range, and just past each. -/
theorem test_witness_ranges :
    ((0x3FFFFFFF#32).toInt + (0x40000000#32).toInt = 2147483647 ∧ (0xC0000000#32).toInt + (0xC0000000#32).toInt = -2147483648) ∧
    ((0x40000000#32).toInt + (0x40000000#32).toInt = 2147483648 ∧ (0xBFFFFFFF#32).toInt + (0xC0000000#32).toInt = -2147483649) ∧
    ((0xFFFFFFFF#32).toInt - (0x7FFFFFFF#32).toInt = -2147483648 ∧ (0x00000000#32).toInt - (0x80000001#32).toInt = 2147483647) ∧
    ((0xFFFFFFFE#32).toInt - (0x7FFFFFFF#32).toInt = -2147483649 ∧ (0x00000000#32).toInt - (0x80000000#32).toInt = 2147483648) ∧
    ((0x7FFF8000#32).toInt + (0x7FFF#16).toInt = 2147483647 ∧ (0x80008000#32).toInt + (0x8000#16).toInt = -2147483648) ∧
    ((0x7FFF8001#32).toInt + (0x7FFF#16).toInt = 2147483648 ∧ (0x80007FFF#32).toInt + (0x8000#16).toInt = -2147483649) := by
  decide

theorem test_witness_addends :
    (start [] [(9, 0x3FFFFFFF#32), (10, 0x40000000#32)] []).readReg 9 = 0x3FFFFFFF#32 ∧
    (start [] [(9, 0x3FFFFFFF#32), (10, 0x40000000#32)] []).readReg 10 = 0x40000000#32 := by decide

/-- SignedOverflowFaults: by the sign bits, for a sum, a difference and a constant; and a step that faults so, for
FaultChangesOnlyStatus and FaultsAreExactlyTheListedOnes too. -/
theorem test_witness_overflow :
    ((0x40000000#32).msb = (0x40000000#32).msb ∧ (0x40000000#32 + 0x40000000#32).msb ≠ (0x40000000#32).msb) ∧
    ((0x00000000#32).msb ≠ (0x80000000#32).msb ∧ (0x00000000#32 - 0x80000000#32).msb ≠ (0x00000000#32).msb) ∧
    ((0x80000000#32).msb = (BitVec.signExtend 32 0xFFFF#16).msb ∧
      (0x80000000#32 + BitVec.signExtend 32 0xFFFF#16).msb ≠ (0x80000000#32).msb) ∧
    (start [0x02328020#32] [(17, 0x7FFFFFFF#32), (18, 1#32)] []).status = .running ∧
    step (start [0x02328020#32] [(17, 0x7FFFFFFF#32), (18, 1#32)] []) = .fault (.integerOverflow 0x00400000#32 0x02328020#32) :=
  ⟨by decide, by decide, by decide, by decide, eq_fault_of_faultOf (by decide)⟩

/-- OverflowTestedForRegisterZero: each of the six hypotheses. -/
theorem test_witness_overflowTest :
    addOverflows 0x7FFFFFFF#32 1#32 = true ∧ addOverflows 1#32 2#32 = false ∧ subOverflows 0#32 0x80000000#32 = true ∧
    subOverflows 0#32 1#32 = false ∧ addOverflows 0x80000000#32 (BitVec.signExtend 32 0xFFFF#16) = true ∧
    addOverflows 0x7FFFFFFF#32 (BitVec.signExtend 32 0xFFFF#16) = false := by decide

/-- EffectiveAddressWraps: a store and a load that complete, the load's base not its destination. -/
theorem test_witness_address :
    nextOf (exec (.sw 8 9 0) (start [] [(9, 0x10010000#32)] [])) ≠ none ∧ (8 : RegNum) ≠ 9 ∧
    nextOf (exec (.lw 8 9 0) (start [] [(9, 0x10010000#32)] [])) ≠ none := by decide

/-- AccessChecksInOrder, MemWriteChangesOneWord, and the completing clause of LoadWordInstruction and StoreWordInstruction: misaligned in the text; in the text at
its first and last word; unmapped beside the data; mapped at its first and last word, in a canonical memory. -/
theorem test_witness_access :
    ((0x00400001#32).toNat % 4 ≠ 0 ∧ (params [0#32, 0#32]).inText 0x00400001#32 = true) ∧
    ((params [0#32, 0#32]).inText 0x00400000#32 = true ∧ (params [0#32, 0#32]).inText 0x00400004#32 = true) ∧
    ((params [0#32, 0#32]).inText 0x00400008#32 = false ∧ (params [0#32, 0#32]).dataMapped 0x00400008#32 = false) ∧
    ((params [0#32, 0#32]).inText 0x10020000#32 = false ∧ (params [0#32, 0#32]).dataMapped 0x10020000#32 = false) ∧
    (effectiveAddress (start [0#32, 0#32] [(9, 0x10010000#32)] []) 9 0 = 0x10010000#32 ∧ aligned 0x10010000#32 = true ∧
      (params [0#32, 0#32]).regionOf 0x10010000#32 = .data) ∧
    (aligned 0x1001FFFC#32 = true ∧ (params [0#32, 0#32]).regionOf 0x1001FFFC#32 = .data) ∧
    (start [0#32, 0#32] [] [(0x10010000, 0x00FF0001#32)]).mem.wf := by decide

/-- LoadWordInstruction, StoreWordInstruction: an effective address of each kind, at the two ends of the text and of the data. -/
theorem test_witness_loadStore :
    (effectiveAddress (start [0#32] [(9, 0x10010000#32)] []) 9 1 = 0x10010001#32 ∧ aligned 0x10010001#32 = false) ∧
    (effectiveAddress (start [0#32] [(9, 0x00400000#32)] []) 9 0 = 0x00400000#32 ∧ aligned 0x00400000#32 = true ∧
      (params [0#32]).regionOf 0x00400000#32 = .text) ∧
    (effectiveAddress (start [0#32] [(9, 0x00400000#32)] []) 9 4 = 0x00400004#32 ∧ aligned 0x00400004#32 = true ∧
      (params [0#32]).regionOf 0x00400004#32 = .unmapped) ∧
    (effectiveAddress (start [0#32] [(9, 0x10010000#32)] []) 9 0xFFFC#16 = 0x1000FFFC#32 ∧ aligned 0x1000FFFC#32 = true ∧
      (params [0#32]).regionOf 0x1000FFFC#32 = .unmapped) := by decide

/-- LoadReturnsLatestStore: a store that completes, and another base and offset that give its address. -/
theorem test_witness_storeThenLoad :
    (start [] [(9, 0x10010000#32), (10, 0x10010008#32), (8, 5#32)] []).mem.wf ∧
    nextOf (exec (.sw 8 9 4) (start [] [(9, 0x10010000#32), (10, 0x10010008#32), (8, 5#32)] [])) ≠ none ∧
    (nextOf (exec (.sw 8 9 4) (start [] [(9, 0x10010000#32), (10, 0x10010008#32), (8, 5#32)] []))).map
        (fun t => effectiveAddress t 10 0xFFFC#16) =
      some (effectiveAddress (start [] [(9, 0x10010000#32), (10, 0x10010008#32), (8, 5#32)] []) 9 4) := by decide

/-- ByteOrderOfWords: each order, a byte of the text and one of data. -/
theorem test_witness_byteOrder :
    (start [0x02328020#32] [] []).params.byteOrder = .big ∧
    { params [0x02328020#32] with byteOrder := .little }.byteOrder = .little ∧
    ((params [0x02328020#32]).wf = true ∧ aligned 0x00400000#32 = true ∧ (params [0x02328020#32]).inText 0x00400000#32 = true ∧
      (params [0x02328020#32]).program[0]? = some 0x02328020#32) ∧
    (params [0x02328020#32]).regionOf 0x1001FFFC#32 = .data := by decide

/-- One word stored in an empty memory reads as itself, and every other word as zeros, in either byte order. -/
theorem readWord_of_one_store {s : State} (hm : s.mem = []) {ea a : Word} (he : aligned ea = true) (ha : aligned a = true) (v : Word) :
    (s.writeWord ea v).readWord a = if a = ea then v else 0#32 := by
  have hw : s.mem.wf := by rw [hm]; exact Memory.wf_nil
  split
  · next h => subst h; exact Memory.readWord_writeWord_same hw _ _ _
  · next h =>
    have h1 := (aligned_iff a).mp ha
    have h2 := (aligned_iff ea).mp he
    have h3 : a.toNat ≠ ea.toNat := fun h' => h (BitVec.eq_of_toNat_eq h')
    refine (Memory.readWord_writeWord_other hw _ _ (by omega) _).trans ?_
    show Memory.readWord s.params.byteOrder s.mem a.toNat = 0#32
    rw [hm]
    simp only [Memory.readWord, Memory.read]
    cases s.params.byteOrder <;> decide

/-- ByteOrderUnobservable: one word in memory, held in either order; the two lists of bytes differ. -/
theorem test_witness_sameWords :
    ((start [] [] []).writeWord 0x10010000#32 0xCAFEBABE#32).mem.wf ∧
    (({ start [] [] [] with params := { params [] with byteOrder := .little } } : State).writeWord 0x10010000#32 0xCAFEBABE#32).mem.wf ∧
    ((start [] [] []).writeWord 0x10010000#32 0xCAFEBABE#32).mem ≠
      (({ start [] [] [] with params := { params [] with byteOrder := .little } } : State).writeWord 0x10010000#32 0xCAFEBABE#32).mem ∧
    sameWords ((start [] [] []).writeWord 0x10010000#32 0xCAFEBABE#32)
      (({ start [] [] [] with params := { params [] with byteOrder := .little } } : State).writeWord 0x10010000#32 0xCAFEBABE#32) :=
  ⟨by decide, by decide, by decide, rfl, rfl, rfl, rfl, fun _ ha =>
    (readWord_of_one_store rfl rfl ha _).trans (readWord_of_one_store rfl rfl ha _).symm⟩

/-- NotByNor: the source register of the example. -/
theorem test_witness_not : (start [] [(9, 0x00003C00#32)] []).readReg 9 = 0x00003C00#32 := by decide

/-- ShiftsMultiplyAndDivide: the bounds under which `sll` is exact, met at shifts 0, 4 and 31. -/
theorem test_witness_shift :
    (8 : RegNum) ≠ 0#5 ∧ (0xFFFFFFFF#32).toNat < 2 ^ (32 - (0 : Shamt).toNat) ∧ (1#32).toNat < 2 ^ (32 - (31 : Shamt).toNat) ∧
    (-2147483648 ≤ (0xF8000000#32).toInt * 2 ^ (4 : Shamt).toNat ∧ (0xF8000000#32).toInt * 2 ^ (4 : Shamt).toNat ≤ 2147483647) := by
  decide

/-- ImmediateConstantsInRange: names, and constants at and past each bound. -/
theorem test_witness_constants :
    regOfName "$t0" = some 8 ∧ regOfName "$t1" = some 9 ∧ ((-32768 : Int) ≤ -32768 ∧ (-32768 : Int) ≤ 32767) ∧
    ¬ ((-32768 : Int) ≤ 32768 ∧ (32768 : Int) ≤ 32767) ∧ ((0 : Int) ≤ 65535 ∧ (65535 : Int) ≤ 65535) ∧
    ¬ ((0 : Int) ≤ -1 ∧ (-1 : Int) ≤ 65535) := by decide

end Sys2Proof.Machine.Tests
end

section
/-! The laws the statements about memory (spec/20_memory.md) need beyond `Sys2Proof/Laws/`, and the proofs of those statements. -/

namespace Sys2Proof

/-! ### Bytes of a word put together from bytes (R26) -/

/-- Past its low byte, a byte of a bit vector is a byte of what stands above the low byte. -/
theorem extractLsb'_append_byte_high {n : Nat} (x : BitVec n) (b : Byte) (i : Nat) :
    (x ++ b).extractLsb' (i + 8) 8 = x.extractLsb' i 8 :=
  BitVec.extractLsb'_append_eq_of_le (by omega)

theorem extractLsb'_append_byte_low {n : Nat} (x : BitVec n) (b : Byte) : (x ++ b).extractLsb' 0 8 = b :=
  BitVec.extractLsb'_append_eq_right

theorem extractLsb'_four_bytes (b3 b2 b1 b0 : Byte) :
    (b3 ++ b2 ++ b1 ++ b0).extractLsb' 24 8 = b3 ∧ (b3 ++ b2 ++ b1 ++ b0).extractLsb' 16 8 = b2 ∧
    (b3 ++ b2 ++ b1 ++ b0).extractLsb' 8 8 = b1 ∧ (b3 ++ b2 ++ b1 ++ b0).extractLsb' 0 8 = b0 := by
  simp [extractLsb'_append_byte_high, extractLsb'_append_byte_low]

/-- The byte of a word at each of its four addresses is the byte the word was put together from. -/
theorem byteOfWord_wordOfBytes (o : ByteOrder) (f : Nat → Byte) {k : Nat} (hk : k < 4) :
    byteOfWord o (wordOfBytes o (f 0) (f 1) (f 2) (f 3)) k = f k := by
  obtain ⟨big0, big1, big2, big3⟩ := extractLsb'_four_bytes (f 0) (f 1) (f 2) (f 3)
  obtain ⟨little3, little2, little1, little0⟩ := extractLsb'_four_bytes (f 3) (f 2) (f 1) (f 0)
  obtain rfl | rfl | rfl | rfl : k = 0 ∨ k = 1 ∨ k = 2 ∨ k = 3 := by omega
  all_goals cases o <;> assumption

namespace Machine

/-! ### Words of data -/

/-- Each byte of a word of memory is the byte at its address. -/
theorem Memory.read_eq_byteOfWord_readWord (o : ByteOrder) (m : Memory) (a : Nat) {k : Nat} (hk : k < 4) :
    m.read (a + k) = byteOfWord o (m.readWord o a) k :=
  (byteOfWord_wordOfBytes o (fun j => m.read (a + j)) hk).symm

/-- Each byte of a data word is the word's byte at that place in the byte order of the run. -/
theorem State.read_eq_byteOfWord_readWord (s : State) (a : Word) {k : Nat} (hk : k < 4) :
    s.mem.read (a.toNat + k) = byteOfWord s.params.byteOrder (s.readWord a) k :=
  Memory.read_eq_byteOfWord_readWord _ _ _ hk

/-- The four bytes of a data word are the word's in the byte order of the run. -/
theorem State.bytes_of_readWord {s : State} {o : ByteOrder} (ho : s.params.byteOrder = o) (a : Word) :
    s.mem.read a.toNat = byteOfWord o (s.readWord a) 0 ∧ s.mem.read (a.toNat + 1) = byteOfWord o (s.readWord a) 1 ∧
    s.mem.read (a.toNat + 2) = byteOfWord o (s.readWord a) 2 ∧ s.mem.read (a.toNat + 3) = byteOfWord o (s.readWord a) 3 := by
  subst ho
  have hbyte {k : Nat} (hk : k < 4) := s.read_eq_byteOfWord_readWord a hk
  exact ⟨hbyte (k := 0) (by decide), hbyte (by decide), hbyte (by decide), hbyte (by decide)⟩

section
variable {s : State} {a b : Word} (hm : s.mem.wf) (v : Word)
include hm

theorem State.readWord_writeWord_same : (s.writeWord a v).readWord a = v :=
  Memory.readWord_writeWord_same hm _ _ _

/-- Two different aligned words have no byte in common, so storing the one leaves the other. -/
theorem State.readWord_writeWord_other (ha : aligned a = true) (hb : aligned b = true) (hne : b ≠ a) :
    (s.writeWord a v).readWord b = s.readWord b := by
  have ha := (aligned_iff a).mp ha
  have hb := (aligned_iff b).mp hb
  have hne : b.toNat ≠ a.toNat := fun h => hne (BitVec.eq_of_toNat_eq h)
  exact Memory.readWord_writeWord_other hm _ _ (by omega) v

theorem State.read_writeWord_outside {k : Nat} (hk : k < a.toNat ∨ a.toNat + 4 ≤ k) :
    (s.writeWord a v).mem.read k = s.mem.read k := by
  rw [State.writeWord_mem, Memory.read_writeWord hm, if_neg (by omega)]

end

/-! ### Alignment and the address map -/

theorem aligned_eq_false_iff (a : Word) : aligned a = false ↔ a.toNat % 4 ≠ 0 := by simp [aligned]

theorem toNat_ofNat_aligned_add {a : Word} (ha : aligned a = true) {k : Nat} (hk : k < 4) :
    (BitVec.ofNat 32 (a.toNat + k)).toNat = a.toNat + k :=
  (BitVec.toNat_ofNat _ _).trans (Nat.mod_eq_of_lt (aligned_add_lt ha hk))

theorem regionOf_eq_text {p : Params} {a : Word} : p.regionOf a = .text ↔ p.inText a = true := by
  unfold Params.regionOf
  cases p.inText a <;> cases p.dataMapped a <;> simp

theorem regionOf_eq_unmapped {p : Params} {a : Word} :
    p.regionOf a = .unmapped ↔ p.inText a = false ∧ p.dataMapped a = false := by
  unfold Params.regionOf
  cases p.inText a <;> cases p.dataMapped a <;> simp

theorem textAligned_of_wf {p : Params} (hp : p.wf = true) : p.textAligned = true := by
  simp only [Params.wf, Bool.and_eq_true] at hp
  obtain ⟨⟨haligned, -⟩, -⟩ := hp
  exact haligned

/-! ### How a store stops (R28, R31) -/

theorem memWrite_eq_fault {s : State} {a v : Word} {f : Fault} :
    memWrite s a v = .fault f ↔ aligned a = false ∧ f = .addressErrorStore a := by
  simp [memWrite, andThen_eq_fault, checkAccess_eq_fault, addressError]

theorem memWrite_eq_refused {s : State} {a v : Word} {q : Refusal} :
    memWrite s a v = .refused q ↔
      aligned a = true ∧ ((s.params.regionOf a = .text ∧ q = .textAccess a .store) ∨
        (s.params.regionOf a = .unmapped ∧ q = .unmappedAccess a .store)) := by
  simp [memWrite, andThen_eq_refused, checkAccess_eq_refused]

/-! ### The bytes the host reads (R119) -/

/-- In the text the host reads the bytes of the instruction words in the byte order of the run. -/
theorem State.hostByte_text {s : State} {a w : Word} {k : Nat} (hp : s.params.textAligned = true)
    (ha : aligned a = true) (ht : s.params.inText a = true) (hk : k < 4)
    (hw : s.params.program[(a.toNat - s.params.textBase.toNat) / 4]? = some w) :
    s.hostByte (BitVec.ofNat 32 (a.toNat + k)) = some (byteOfWord s.params.byteOrder w k) := by
  have hregion : s.params.regionOf (BitVec.ofNat 32 (a.toNat + k)) = .text :=
    (regionOf_word hp ha hk).trans (regionOf_eq_text.mpr ht)
  have haddr := toNat_ofNat_aligned_add ha hk
  have hbase : s.params.textBase.toNat % 4 = 0 := by simpa [Params.textAligned] using hp
  have hle := ((inText_iff _ _).mp ht).1
  have hal := (aligned_iff a).mp ha
  have hindex : (a.toNat + k - s.params.textBase.toNat) / 4 = (a.toNat - s.params.textBase.toNat) / 4 := by omega
  have hplace : (a.toNat + k - s.params.textBase.toNat) % 4 = k := by omega
  simp [State.hostByte, hregion, haddr, hindex, hplace, hw]

/-- Where data is mapped the host reads the bytes of data memory. -/
theorem State.hostByte_data {s : State} {a : Word} {k : Nat} (hp : s.params.textAligned = true)
    (ha : aligned a = true) (hd : s.params.regionOf a = .data) (hk : k < 4) :
    s.hostByte (BitVec.ofNat 32 (a.toNat + k)) = some (s.mem.read (a.toNat + k)) := by
  have hregion : s.params.regionOf (BitVec.ofNat 32 (a.toNat + k)) = .data := (regionOf_word hp ha hk).trans hd
  have haddr := toNat_ofNat_aligned_add ha hk
  simp [State.hostByte, hregion, haddr]

/-! ### No step changes the parameters (R22) -/

theorem exec_params {i : Instr} {s t : State} (h : exec i s = .next t) : t.params = s.params := by
  obtain ⟨d, v, -, rfl⟩ | ⟨rt, rs, imm, -, -, -, rfl⟩ := exec_eq_next h <;> simp

theorem step_params {s t : State} (h : step s = .next t) : t.params = s.params := by
  obtain ⟨-, rfl⟩ | ⟨-, -, rfl⟩ | ⟨-, -, i, -, hi⟩ := step_eq_next h
  · rfl
  · rfl
  · exact exec_params hi

@[simp] theorem tick_params (s : State) : (tick s).params = s.params := by
  unfold tick
  cases h : step s with
  | next t => exact step_params h
  | fault f => rfl
  | refused q => rfl

@[simp] theorem ticks_params (k : Nat) (s : State) : (ticks k s).params = s.params := by
  induction k generalizing s with
  | zero => rfl
  | succ k ih => rw [ticks_succ, ih, tick_params]

/-! ### The statements -/

/-- Settles O36: the first three clauses are the checks of `memWrite`, and what its fourth clause says of the state
`writeWord` gives are the laws of word memory. -/
theorem memWriteChangesOneWord : Obligations.MemWriteChangesOneWord := by
  intro s a v
  refine ⟨fun ha => ?_, fun ha ht => ?_, fun ha ht hd => ?_, fun hm ha ht hd => ?_⟩
  · exact memWrite_eq_fault.mpr ⟨(aligned_eq_false_iff a).mpr ha, rfl⟩
  · exact memWrite_eq_refused.mpr ⟨(aligned_iff a).mpr ha, .inl ⟨regionOf_eq_text.mpr ht, rfl⟩⟩
  · exact memWrite_eq_refused.mpr ⟨(aligned_iff a).mpr ha, .inr ⟨regionOf_eq_unmapped.mpr ⟨ht, hd⟩, rfl⟩⟩
  · have ha := (aligned_iff a).mpr ha
    exact ⟨s.writeWord a v, memWrite_eq_next.mpr ⟨ha, regionOf_eq_data.mpr ⟨ht, hd⟩, rfl⟩,
      State.readWord_writeWord_same hm v,
      fun b hb hne => State.readWord_writeWord_other hm v ha ((aligned_iff b).mpr hb) hne,
      fun k hk => State.read_writeWord_outside hm v hk, rfl, rfl, rfl, rfl⟩

/-- Settles O38: data words and instruction words both have their bytes by `byteOfWord` in the order the parameters give, and
no tick changes the parameters. -/
theorem byteOrderOfWords : Obligations.ByteOrderOfWords := by
  refine ⟨fun s a ho => State.bytes_of_readWord ho a, fun s a ho => State.bytes_of_readWord ho a,
    fun s a w k hp ha ht hk hw => ?_, fun s a k hp ha hd hk => ?_, fun s k => ?_⟩
  · rw [State.hostByte_text (textAligned_of_wf hp) ha ht hk hw]
    cases s.params.byteOrder <;> rfl
  · exact State.hostByte_data (textAligned_of_wf hp) ha hd hk
  · rw [ticks_params]

end Machine

end Sys2Proof
end

section
/-! The laws the statements about the encoding (spec/30_encoding.md) need beyond `Sys2Proof/Laws/`, and the proofs of those statements. -/

namespace Sys2Proof

/-! ### The value of a word put together from fields (R41) -/

theorem toNat_append_eq_mul_add {m n : Nat} (x : BitVec m) (y : BitVec n) :
    (x ++ y).toNat = x.toNat * 2 ^ n + y.toNat := by
  rw [BitVec.toNat_append, ← Nat.shiftLeft_add_eq_or_of_lt y.isLt, Nat.shiftLeft_eq]

theorem toNat_rWord (op : BitVec 6) (rs rt rd : RegNum) (h : Shamt) (f : BitVec 6) :
    (rWord op rs rt rd h f).toNat =
      op.toNat * 2 ^ 26 + rs.toNat * 2 ^ 21 + rt.toNat * 2 ^ 16 + rd.toNat * 2 ^ 11 + h.toNat * 2 ^ 6 + f.toNat := by
  simp only [rWord, toNat_append_eq_mul_add]
  omega

/-! ### The must-be-zero fields of the group `op = 0` (R51) -/

/-- The `funct` codes of `add`, `sub`, `and`, `or`, `xor`, `nor` (R50). -/
def threeRegFuncts : List (BitVec 6) := [32#6, 34#6, 36#6, 37#6, 38#6, 39#6]

/-- The `funct` codes of `sll`, `srl`, `sra` (R50). -/
def shiftFuncts : List (BitVec 6) := [0#6, 2#6, 3#6]

section
variable {w : Word} (hop : opField w = 0#6)
include hop

theorem exists_decode_eq_decodeThreeReg (hf : functField w ∈ threeRegFuncts) : ∃ mk, decode w = decodeThreeReg mk w := by
  simp only [threeRegFuncts, List.mem_cons, List.not_mem_nil, or_false] at hf
  obtain hf | hf | hf | hf | hf | hf := hf
  all_goals exact ⟨_, by simp only [decode, decodeRFormat, hop, hf]; rfl⟩

theorem exists_decode_eq_decodeShift (hf : functField w ∈ shiftFuncts) : ∃ mk, decode w = decodeShift mk w := by
  simp only [shiftFuncts, List.mem_cons, List.not_mem_nil, or_false] at hf
  obtain hf | hf | hf := hf
  all_goals exact ⟨_, by simp only [decode, decodeRFormat, hop, hf]; rfl⟩

theorem decode_eq_shamtNotZero (hf : functField w ∈ threeRegFuncts) (hne : shamtField w ≠ 0#5) :
    decode w = .error (.shamtNotZero (shamtField w)) := by
  obtain ⟨mk, hdecode⟩ := exists_decode_eq_decodeThreeReg hop hf
  rw [hdecode, decodeThreeReg, if_neg hne]

theorem decode_eq_rsNotZero (hf : functField w ∈ shiftFuncts) (hne : rsField w ≠ 0#5) :
    decode w = .error (.rsNotZero (rsField w)) := by
  obtain ⟨mk, hdecode⟩ := exists_decode_eq_decodeShift hop hf
  rw [hdecode, decodeShift, if_neg hne]

end

/-- A word that matches a row agrees with it in every field, as far as the row's mask goes. -/
theorem fields_of_rowMatches {row : OpcodeRow} {w : Word} (h : rowMatches row w = true) :
    opField w &&& opField row.mask = opField row.value ∧ rsField w &&& rsField row.mask = rsField row.value ∧
    shamtField w &&& shamtField row.mask = shamtField row.value ∧
    functField w &&& functField row.mask = functField row.value := by
  rw [← beq_iff_eq.mp h]
  exact ⟨BitVec.extractLsb'_and.symm, BitVec.extractLsb'_and.symm, BitVec.extractLsb'_and.symm,
    BitVec.extractLsb'_and.symm⟩

/-- Every row fixes `op`, and a row of the group `op = 0` fixes `funct` and its own must-be-zero field. -/
theorem fixedFields_of_mem_opcodeRows : ∀ row ∈ opcodeRows, opField row.mask = .allOnes 6 ∧
    (opField row.value = 0#6 → functField row.mask = .allOnes 6 ∧
      (functField row.value ∈ threeRegFuncts → shamtField row.mask = .allOnes 5 ∧ shamtField row.value = 0#5) ∧
      (functField row.value ∈ shiftFuncts → rsField row.mask = .allOnes 5 ∧ rsField row.value = 0#5)) := by
  decide

/-- The table of R48 admits a word of the group `op = 0` only with its must-be-zero field 0. -/
theorem mustBeZero_of_wellFormedWord {w : Word} (hw : wellFormedWord w = true) (hop : opField w = 0#6) :
    (functField w ∈ threeRegFuncts → shamtField w = 0#5) ∧ (functField w ∈ shiftFuncts → rsField w = 0#5) := by
  obtain ⟨row, hrow, hmatch⟩ := List.any_eq_true.mp hw
  obtain ⟨hopEq, hrsEq, hshamtEq, hfunctEq⟩ := fields_of_rowMatches hmatch
  obtain ⟨hopMask, hgroup⟩ := fixedFields_of_mem_opcodeRows row hrow
  rw [hopMask, BitVec.and_allOnes, hop] at hopEq
  obtain ⟨hfunctMask, hshamt, hrs⟩ := hgroup hopEq.symm
  rw [hfunctMask, BitVec.and_allOnes] at hfunctEq
  rw [hfunctEq]
  refine ⟨fun hf => ?_, fun hf => ?_⟩
  · obtain ⟨hmask, hvalue⟩ := hshamt hf
    rwa [hmask, BitVec.and_allOnes, hvalue] at hshamtEq
  · obtain ⟨hmask, hvalue⟩ := hrs hf
    rwa [hmask, BitVec.and_allOnes, hvalue] at hrsEq

/-! ### The words R51 names are refused -/

namespace Machine

section
variable {w : Word} (hop : opField w = 0#6)
include hop

/-- A row that matched, and a decoder that answered, would both have found `shamt` 0. -/
theorem shamtNotZero_refused (hf : functField w ∈ threeRegFuncts) (hne : shamtField w ≠ 0#5) :
    wellFormedWord w = false ∧ decodeFetched w = .refused (.reservedInstruction w) :=
  ⟨Bool.eq_false_iff.mpr fun hw => hne ((mustBeZero_of_wellFormedWord hw hop).1 hf),
    decodeFetched_error (decode_eq_shamtNotZero hop hf hne)⟩

/-- A row that matched, and a decoder that answered, would both have found `rs` 0. -/
theorem rsNotZero_refused (hf : functField w ∈ shiftFuncts) (hne : rsField w ≠ 0#5) :
    wellFormedWord w = false ∧ decodeFetched w = .refused (.reservedInstruction w) :=
  ⟨Bool.eq_false_iff.mpr fun hw => hne ((mustBeZero_of_wellFormedWord hw hop).2 hf),
    decodeFetched_error (decode_eq_rsNotZero hop hf hne)⟩

end

/-! ### The statements -/

/-- Settles O5: the value is that of the appended fields, and a word is the word of its own fields by `rWord_fields`. -/
theorem rFormatWordValue : Obligations.RFormatWordValue :=
  ⟨toNat_rWord, rWord_fields⟩

/-- Settles O7: the words of the two clauses have the fields the two lemmas on refused words ask for. -/
theorem mustBeZeroFieldsRefused : Obligations.MustBeZeroFieldsRefused :=
  ⟨fun _ _ _ _ _ hf hne => shamtNotZero_refused (opField_rWord ..) (by rwa [functField_rWord]) (by rwa [shamtField_rWord]),
    fun _ _ _ _ _ hf hne => rsNotZero_refused (opField_rWord ..) (by rwa [functField_rWord]) (by rwa [rsField_rWord])⟩

end Machine

end Sys2Proof
end

section
/-! The laws the statements about arithmetic (spec/40_arithmetic.md) need beyond `Sys2Proof/Laws/`, and the proofs of those statements. -/

namespace Sys2Proof

/-! ### The words of `add`, `sub` and `addi` (R60, R61, R62) -/

section
variable (rs rt rd : RegNum) (shamt : Shamt)

theorem decode_addWord : decode (rWord 0 rs rt rd 0 32) = .ok (.add rd rs rt) := by
  simp [decode, decodeRFormat, decodeThreeReg]

theorem decode_subWord : decode (rWord 0 rs rt rd 0 34) = .ok (.sub rd rs rt) := by
  simp [decode, decodeRFormat, decodeThreeReg]

theorem decode_addiWord (imm : Imm) : decode (iWord 8 rs rt imm) = .ok (.addi rt rs imm) := by
  simp [decode, decodeImm]

/-- With a `shamt` that is not 0 the word of a three-register instruction is reserved (R51). -/
theorem exists_decode_rWord_eq_error {f : BitVec 6} (hf : f ∈ threeRegFuncts) (hne : shamt ≠ 0#5) :
    ∃ e, decode (rWord 0 rs rt rd shamt f) = .error e :=
  ⟨_, decode_eq_shamtNotZero (opField_rWord ..) (by rwa [functField_rWord]) (by rwa [shamtField_rWord])⟩

end

namespace Machine

/-! ### Signed overflow (R63)

The model's two tests are the library's, which knows the sign-bit form of them and the exact value where they fail. -/

section
variable (a b : Word)

theorem addOverflows_eq_saddOverflow : addOverflows a b = a.saddOverflow b := by
  rw [Bool.eq_iff_iff, addOverflows_iff]
  simp only [BitVec.saddOverflow, Bool.or_eq_true, decide_eq_true_eq]
  omega

theorem subOverflows_eq_ssubOverflow : subOverflows a b = a.ssubOverflow b := by
  rw [Bool.eq_iff_iff, subOverflows_iff]
  simp only [BitVec.ssubOverflow, Bool.or_eq_true, decide_eq_true_eq]
  omega

/-- A sum overflows when the operands have one sign and the sum the other. -/
theorem addOverflows_iff_msb : addOverflows a b = true ↔ a.msb = b.msb ∧ (a + b).msb ≠ a.msb := by
  simp [addOverflows_eq_saddOverflow, BitVec.saddOverflow_eq]

/-- A difference overflows when the operands have unlike signs and the difference not that of the first. -/
theorem subOverflows_iff_msb : subOverflows a b = true ↔ a.msb ≠ b.msb ∧ (a - b).msb ≠ a.msb := by
  rw [subOverflows_eq_ssubOverflow, BitVec.ssubOverflow_eq]
  cases a.msb <;> cases b.msb <;> simp

variable {a b}

theorem toInt_add_of_addOverflows_eq_false (h : addOverflows a b = false) : (a + b).toInt = a.toInt + b.toInt :=
  BitVec.toInt_add_of_not_saddOverflow (by simp [← addOverflows_eq_saddOverflow, h])

theorem toInt_sub_of_subOverflows_eq_false (h : subOverflows a b = false) : (a - b).toInt = a.toInt - b.toInt :=
  BitVec.toInt_sub_of_not_ssubOverflow (by simp [← subOverflows_eq_ssubOverflow, h])

end

/-! ### The shape the three instructions share -/

@[simp] theorem State.writeReg_zero (s : State) (v : Word) : s.writeReg 0 v = s := dif_pos rfl

section
variable (rd rs rt : RegNum) (imm : Imm) (s : State)

theorem exec_add : exec (.add rd rs rt) s =
    writeUnlessOverflow (addOverflows (s.readReg rs) (s.readReg rt)) (.add rd rs rt) s rd
      (s.readReg rs + s.readReg rt) := rfl

theorem exec_sub : exec (.sub rd rs rt) s =
    writeUnlessOverflow (subOverflows (s.readReg rs) (s.readReg rt)) (.sub rd rs rt) s rd
      (s.readReg rs - s.readReg rt) := rfl

theorem exec_addi : exec (.addi rt rs imm) s =
    writeUnlessOverflow (addOverflows (s.readReg rs) (imm.signExtend 32)) (.addi rt rs imm) s rt
      (s.readReg rs + imm.signExtend 32) := rfl

end

section
variable {i : Instr} {s : State} {rd : RegNum} {v : Word} {overflows : Bool}

theorem exec_eq_fault_of_overflows (hexec : exec i s = writeUnlessOverflow overflows i s rd v) (ho : overflows = true) :
    exec i s = .fault (.integerOverflow s.pc (encode i)) := by
  rw [hexec, ho, writeUnlessOverflow_true]

theorem exec_eq_next_of_not_overflows (hexec : exec i s = writeUnlessOverflow overflows i s rd v)
    (ho : overflows = false) : exec i s = .next (s.writeReg rd v).advance := by
  rw [hexec, ho, writeUnlessOverflow_false]

/-- With destination 0 only the result is dropped: the test still decides between the fault and the advance (R65). -/
theorem exec_destination_zero (hexec : exec i s = writeUnlessOverflow overflows i s 0 v) :
    (overflows = true → exec i s = .fault (.integerOverflow s.pc (encode i))) ∧
    (overflows = false → exec i s = .next { s with pc := s.pc + 4#32 }) := by
  refine ⟨exec_eq_fault_of_overflows hexec, fun ho => ?_⟩
  rw [exec_eq_next_of_not_overflows hexec ho, State.writeReg_zero, State.advance]

/-- An instruction whose test asks whether the exact result `n` is out of range, and whose value is `n` where it is not,
writes `n` and nothing else, or faults. -/
theorem exec_of_exact_result {n : Int} (hexec : exec i s = writeUnlessOverflow overflows i s rd v)
    (htest : overflows = true ↔ ¬ (-2147483648 ≤ n ∧ n ≤ 2147483647)) (hvalue : overflows = false → v.toInt = n) :
    (-2147483648 ≤ n → n ≤ 2147483647 →
      ∃ t, exec i s = .next t ∧ wroteRegister s t rd v ∧ (rd ≠ 0#5 → (t.readReg rd).toInt = n)) ∧
    (¬ (-2147483648 ≤ n ∧ n ≤ 2147483647) → exec i s = .fault (.integerOverflow s.pc (encode i))) := by
  refine ⟨fun hlow hhigh => ?_, fun hout => exec_eq_fault_of_overflows hexec (htest.mpr hout)⟩
  have ho : overflows = false := Bool.eq_false_iff.mpr fun h => htest.mp h ⟨hlow, hhigh⟩
  refine ⟨_, exec_eq_next_of_not_overflows hexec ho, wroteRegister_writeReg_advance s rd v, fun hrd => ?_⟩
  rw [State.advance_readReg, State.readReg_writeReg, if_neg hrd, if_pos rfl, hvalue ho]

end

/-! ### The end of a run by a fault (R90) -/

theorem tick_of_step_eq_fault {s : State} {f : Fault} (h : step s = .fault f) :
    tick s = { s with status := .faulted f } := by
  rw [tick, h, State.after_fault]

theorem step_faulted (s : State) (f : Fault) : step { s with status := .faulted f } = .fault f := rfl

/-- No tick moves a state a fault has stopped. -/
theorem ticks_faulted (s : State) (f : Fault) (k : Nat) :
    ticks k { s with status := .faulted f } = { s with status := .faulted f } :=
  ticks_of_tick_eq (tick_of_step_eq_fault (step_faulted s f)) k

/-! ### The statements -/

/-- Settles O27: the exact result is the signed sum. -/
theorem addInstruction : Obligations.AddInstruction := by
  intro rd rs rt s
  obtain ⟨hfits, hout⟩ := exec_of_exact_result (exec_add rd rs rt s) (addOverflows_iff _ _)
    toInt_add_of_addOverflows_eq_false
  exact ⟨⟨decode_addWord rs rt rd, Laws.rWord_mask rs rt rd 32⟩,
    fun shamt => exists_decode_rWord_eq_error rs rt rd shamt (by decide), hfits, hout⟩

/-- Settles O28: the exact result is the signed difference. -/
theorem subInstruction : Obligations.SubInstruction := by
  intro rd rs rt s
  obtain ⟨hfits, hout⟩ := exec_of_exact_result (exec_sub rd rs rt s) (subOverflows_iff _ _)
    toInt_sub_of_subOverflows_eq_false
  exact ⟨⟨decode_subWord rs rt rd, Laws.rWord_mask rs rt rd 34⟩,
    fun shamt => exists_decode_rWord_eq_error rs rt rd shamt (by decide), hfits, hout⟩

/-- Settles O29: the exact result is the signed sum, and sign extension keeps the constant's signed reading. -/
theorem addiInstruction : Obligations.AddiInstruction := by
  intro rt rs imm s
  have himm : (imm.signExtend 32).toInt = imm.toInt := BitVec.toInt_signExtend_of_le (by decide)
  obtain ⟨hfits, hout⟩ := exec_of_exact_result (exec_addi rs rt imm s) (addOverflows_iff _ _)
    toInt_add_of_addOverflows_eq_false
  rw [himm] at hfits hout
  exact ⟨⟨decode_addiWord rs rt imm, Laws.iWord_mask 8 rs rt imm⟩, hfits, hout⟩

/-- Settles O30: the range form and the sign-bit form are both the model's test, which decides the fault; and a fault is the
last thing that happens in a run. -/
theorem signedOverflowFaults : Obligations.SignedOverflowFaults := by
  refine ⟨fun a b => ?_, fun a b => ?_, fun rd rs rt s hsame hresult => ?_, fun rd rs rt s hunlike hresult => ?_,
    fun rt rs imm s hsame hresult => ?_, fun s a w hstep => ?_⟩
  · exact (addOverflows_iff a b).symm.trans (addOverflows_iff_msb a b)
  · exact (subOverflows_iff a b).symm.trans (subOverflows_iff_msb a b)
  · exact exec_eq_fault_of_overflows (exec_add rd rs rt s) ((addOverflows_iff_msb _ _).mpr ⟨hsame, hresult⟩)
  · exact exec_eq_fault_of_overflows (exec_sub rd rs rt s) ((subOverflows_iff_msb _ _).mpr ⟨hunlike, hresult⟩)
  · exact exec_eq_fault_of_overflows (exec_addi rs rt imm s) ((addOverflows_iff_msb _ _).mpr ⟨hsame, hresult⟩)
  · rw [tick_of_step_eq_fault hstep]
    exact ⟨rfl, ticks_faulted s _⟩

/-- Settles O31: for each of the three instructions the test still decides, and the write to register 0 is no write. -/
theorem overflowTestedForRegisterZero : Obligations.OverflowTestedForRegisterZero := by
  intro rs rt imm s
  obtain ⟨haddFault, haddNext⟩ := exec_destination_zero (exec_add 0 rs rt s)
  obtain ⟨hsubFault, hsubNext⟩ := exec_destination_zero (exec_sub 0 rs rt s)
  obtain ⟨haddiFault, haddiNext⟩ := exec_destination_zero (exec_addi rs 0 imm s)
  exact ⟨haddFault, haddNext, hsubFault, hsubNext, haddiFault, haddiNext⟩

end Machine

end Sys2Proof
end

section
/-! The laws the statements about `lw` and `sw` (spec/41_load_store.md) need beyond `Sys2Proof/Laws/`, and the proofs of those statements. -/

namespace Sys2Proof

/-! ### The words of `lw` and `sw` (R71, R72) -/

section
variable (rs rt : RegNum) (imm : Imm)

theorem decode_lwWord : decode (iWord 35 rs rt imm) = .ok (.lw rt rs imm) := by
  simp [decode, decodeImm]

theorem decode_swWord : decode (iWord 43 rs rt imm) = .ok (.sw rt rs imm) := by
  simp [decode, decodeImm]

end

namespace Machine

/-! ### The effective address (R70) -/

/-- Adding a sign-extended constant adds its signed value, modulo 2^32. -/
theorem toNat_add_sext32 (a : Word) (imm : Imm) :
    ((a + sext32 imm).toNat : Int) = (a.toNat + imm.toInt) % 4294967296 := by
  have hsext : ((sext32 imm).toNat : Int) = imm.toInt % 4294967296 := by
    rw [sext32, BitVec.signExtend, BitVec.toNat_ofInt]
    omega
  rw [BitVec.toNat_add]
  omega

/-- A sign-extended constant lies in the lowest or in the highest 32 KiB of the address space. -/
theorem toNat_sext32_range (imm : Imm) : (sext32 imm).toNat ≤ 0x7FFF ∨ 0xFFFF8000 ≤ (sext32 imm).toNat := by
  have hvalue := toNat_add_sext32 0#32 imm
  rw [BitVec.zero_add, BitVec.toNat_zero] at hvalue
  have hlow : -(2 ^ 15) ≤ imm.toInt := BitVec.le_toInt imm
  have hhigh : imm.toInt < 2 ^ 15 := BitVec.toInt_lt
  omega

@[simp] theorem State.readReg_zero (s : State) : s.readReg 0 = 0#32 := dif_pos rfl

theorem effectiveAddress_base_zero (s : State) (imm : Imm) : effectiveAddress s 0 imm = sext32 imm := by
  rw [effectiveAddress, State.readReg_zero, BitVec.zero_add]

/-! ### The registers an instruction leaves (R13) -/

theorem readReg_of_exec_eq_next {i : Instr} {s t : State} {r : RegNum} (h : exec i s = .next t)
    (hr : regWritten i ≠ some r) : t.readReg r = s.readReg r := by
  obtain ⟨d, v, hd, rfl⟩ | ⟨rt, rs, imm, -, -, -, rfl⟩ := exec_eq_next h
  · have hne : r ≠ d := fun hrd => hr (by rw [hd, hrd])
    rw [State.advance_readReg, State.readReg_writeReg, if_neg hne]
    split
    case isTrue hzero => rw [hzero]; exact s.readReg_zero.symm
    case isFalse => rfl
  · rfl

/-! ### The shape the two instructions share: the checks of the access, then a state (R73) -/

theorem andThen_assoc {α β γ : Type} (o : Answer α) (f : α → Answer β) (g : β → Answer γ) :
    andThen (andThen o f) g = andThen o (fun a => andThen (f a) g) := by
  cases o <;> rfl

section
variable (rt rs : RegNum) (imm : Imm) (s : State)

theorem exec_lw : exec (.lw rt rs imm) s =
    andThen (checkAccess s .load (effectiveAddress s rs imm))
      (fun _ => .next (s.writeReg rt (s.readWord (effectiveAddress s rs imm))).advance) :=
  andThen_assoc _ _ _

theorem exec_sw : exec (.sw rt rs imm) s =
    andThen (checkAccess s .store (effectiveAddress s rs imm))
      (fun _ => .next (s.writeWord (effectiveAddress s rs imm) (s.readReg rt)).advance) :=
  andThen_assoc _ _ _

end

section
variable {i : Instr} {s t : State} {kind : AccessKind} {ea : Word}
  (hexec : exec i s = andThen (checkAccess s kind ea) (fun _ => .next t))
include hexec

theorem exec_eq_next_of_data (ha : aligned ea = true) (hd : s.params.regionOf ea = .data) : exec i s = .next t := by
  rw [hexec, checkAccess_eq_next.mpr ⟨ha, hd⟩, andThen_next]

theorem exec_eq_fault_of_misaligned (ha : aligned ea = false) : exec i s = .fault (addressError kind ea) := by
  rw [hexec, checkAccess_eq_fault.mpr ⟨ha, rfl⟩, andThen_fault]

theorem exec_eq_refused_of_text (ha : aligned ea = true) (ht : s.params.regionOf ea = .text) :
    exec i s = .refused (.textAccess ea kind) := by
  rw [hexec, checkAccess_eq_refused.mpr ⟨ha, .inl ⟨ht, rfl⟩⟩, andThen_refused]

theorem exec_eq_refused_of_unmapped (ha : aligned ea = true) (hu : s.params.regionOf ea = .unmapped) :
    exec i s = .refused (.unmappedAccess ea kind) := by
  rw [hexec, checkAccess_eq_refused.mpr ⟨ha, .inr ⟨hu, rfl⟩⟩, andThen_refused]

end

/-! ### The statements -/

/-- Settles O32: the sum is that of the signed offset, register 0 reads as zero, and neither instruction lists its base as
written. -/
theorem effectiveAddressWraps : Obligations.EffectiveAddressWraps := by
  refine ⟨fun s rs imm => toNat_add_sext32 _ _, fun s imm => ?_, fun s t rt rs imm hsw => ?_,
    fun s t rt rs imm hne hlw => ?_⟩
  · rw [effectiveAddress_base_zero]
    exact ⟨rfl, toNat_sext32_range imm⟩
  · exact readReg_of_exec_eq_next hsw (by simp [regWritten])
  · exact readReg_of_exec_eq_next hlw (by simp [regWritten, hne])

/-- Settles O33: each of the two instructions stops where the checks on its effective address stop. -/
theorem accessChecksInOrder : Obligations.AccessChecksInOrder := by
  rintro s rt rs imm ea rfl
  have hlw := exec_lw rt rs imm s
  have hsw := exec_sw rt rs imm s
  refine ⟨fun ha => ?_, fun ha ht => ?_, fun ha ht hd => ?_⟩
  · have ha := (aligned_eq_false_iff _).mpr ha
    exact ⟨exec_eq_fault_of_misaligned hlw ha, exec_eq_fault_of_misaligned hsw ha⟩
  · have ha := (aligned_iff _).mpr ha
    have hregion := regionOf_eq_text.mpr ht
    exact ⟨exec_eq_refused_of_text hlw ha hregion, exec_eq_refused_of_text hsw ha hregion⟩
  · have ha := (aligned_iff _).mpr ha
    have hregion := regionOf_eq_unmapped.mpr ⟨ht, hd⟩
    exact ⟨exec_eq_refused_of_unmapped hlw ha hregion, exec_eq_refused_of_unmapped hsw ha hregion⟩

/-- Settles O34: past the checks the word read is written to the register. -/
theorem loadWordInstruction : Obligations.LoadWordInstruction := by
  intro rt rs imm s
  have hexec := exec_lw rt rs imm s
  exact ⟨⟨decode_lwWord rs rt imm, Laws.iWord_mask 35 rs rt imm⟩,
    fun ha hd => ⟨_, exec_eq_next_of_data hexec ha hd, wroteRegister_writeReg_advance s rt _⟩,
    exec_eq_fault_of_misaligned hexec, exec_eq_refused_of_text hexec, exec_eq_refused_of_unmapped hexec⟩

/-- Settles O35: past the checks the register's value is stored, and a store in canonical memory changes its four bytes and
no other. -/
theorem storeWordInstruction : Obligations.StoreWordInstruction := by
  intro rt rs imm s hm
  have hexec := exec_sw rt rs imm s
  exact ⟨⟨decode_swWord rs rt imm, Laws.iWord_mask 43 rs rt imm⟩,
    fun ha hd => ⟨_, exec_eq_next_of_data hexec ha hd, storedWord_writeWord_advance hm _ _⟩,
    exec_eq_fault_of_misaligned hexec, exec_eq_refused_of_text hexec, exec_eq_refused_of_unmapped hexec⟩

end Machine

end Sys2Proof
end

section
/-! The laws the statements about the logical instructions (spec/42_logical.md) need beyond `Sys2Proof/Laws/`, and the proofs of those statements. -/

namespace Sys2Proof

/-! ### The words of the logical instructions (R75 to R80) -/

section
variable (rs rt rd : RegNum) (imm : Imm)

theorem decode_andWord : decode (rWord 0 rs rt rd 0 36) = .ok (.and rd rs rt) := by
  simp [decode, decodeRFormat, decodeThreeReg]

theorem decode_orWord : decode (rWord 0 rs rt rd 0 37) = .ok (.or rd rs rt) := by
  simp [decode, decodeRFormat, decodeThreeReg]

theorem decode_xorWord : decode (rWord 0 rs rt rd 0 38) = .ok (.xor rd rs rt) := by
  simp [decode, decodeRFormat, decodeThreeReg]

theorem decode_norWord : decode (rWord 0 rs rt rd 0 39) = .ok (.nor rd rs rt) := by
  simp [decode, decodeRFormat, decodeThreeReg]

theorem decode_andiWord : decode (iWord 12 rs rt imm) = .ok (.andi rt rs imm) := by
  simp [decode, decodeImm]

theorem decode_oriWord : decode (iWord 13 rs rt imm) = .ok (.ori rt rs imm) := by
  simp [decode, decodeImm]

end

namespace Machine

/-! ### The bits of the values written -/

/-- Zero extension keeps every bit, and the bits it adds read as those past the constant's end: 0. -/
@[simp] theorem getLsbD_zext32 (imm : Imm) (i : Nat) : (zext32 imm).getLsbD i = imm.getLsbD i := by
  rw [zext32, BitVec.zeroExtend, BitVec.getLsbD_setWidth]
  by_cases hi : i < 32
  · rw [decide_eq_true hi, Bool.true_and]
  · rw [BitVec.getLsbD_of_ge imm i (by omega), Bool.and_false]

theorem getLsbD_nor_iff (a b : Word) {i : Nat} (hi : i < 32) :
    (~~~(a ||| b)).getLsbD i = true ↔ a.getLsbD i = false ∧ b.getLsbD i = false := by
  simp [hi]

/-! ### What the instructions do: write one value, and advance (R82) -/

section
variable (rd rs rt : RegNum) (imm : Imm) (s : State)

theorem exec_and : exec (.and rd rs rt) s = .next (s.writeReg rd (s.readReg rs &&& s.readReg rt)).advance := rfl

theorem exec_or : exec (.or rd rs rt) s = .next (s.writeReg rd (s.readReg rs ||| s.readReg rt)).advance := rfl

theorem exec_xor : exec (.xor rd rs rt) s = .next (s.writeReg rd (s.readReg rs ^^^ s.readReg rt)).advance := rfl

theorem exec_nor : exec (.nor rd rs rt) s = .next (s.writeReg rd (~~~(s.readReg rs ||| s.readReg rt))).advance := rfl

theorem exec_andi : exec (.andi rt rs imm) s = .next (s.writeReg rt (s.readReg rs &&& zext32 imm)).advance := rfl

theorem exec_ori : exec (.ori rt rs imm) s = .next (s.writeReg rt (s.readReg rs ||| zext32 imm)).advance := rfl

/-- Register 0 reads as zero, so `nor` with it inverts the other source (R81). -/
theorem exec_nor_zero : exec (.nor rd rs 0) s = .next (s.writeReg rd (~~~(s.readReg rs))).advance := by
  rw [exec_nor, State.readReg_zero, BitVec.or_zero]

end

/-! ### The statements -/

/-- Settles O40: the value written is the bitwise and of the sources. -/
theorem andInstruction : Obligations.AndInstruction := by
  intro rd rs rt s
  refine ⟨⟨decode_andWord rs rt rd, Laws.rWord_mask rs rt rd 36⟩,
    fun shamt => exists_decode_rWord_eq_error rs rt rd shamt (by decide),
    _, _, exec_and rd rs rt s, wroteRegister_writeReg_advance s rd _, fun i => ?_⟩
  rw [BitVec.getLsbD_and, Bool.and_eq_true]

/-- Settles O41: the value written is the bitwise or of the sources. -/
theorem orInstruction : Obligations.OrInstruction := by
  intro rd rs rt s
  refine ⟨⟨decode_orWord rs rt rd, Laws.rWord_mask rs rt rd 37⟩,
    fun shamt => exists_decode_rWord_eq_error rs rt rd shamt (by decide),
    _, _, exec_or rd rs rt s, wroteRegister_writeReg_advance s rd _, fun i => ?_⟩
  rw [BitVec.getLsbD_or, Bool.or_eq_true]

/-- Settles O42: the value written is the bitwise exclusive or of the sources. -/
theorem xorInstruction : Obligations.XorInstruction := by
  intro rd rs rt s
  refine ⟨⟨decode_xorWord rs rt rd, Laws.rWord_mask rs rt rd 38⟩,
    fun shamt => exists_decode_rWord_eq_error rs rt rd shamt (by decide),
    _, _, exec_xor rd rs rt s, wroteRegister_writeReg_advance s rd _, fun i => ?_⟩
  rw [BitVec.getLsbD_xor, ← Bool.bne_eq_xor, bne_iff_ne]

/-- Settles O43: the value written is the inverted bitwise or of the sources, whose 32 bits `getLsbD_nor_iff` reads. -/
theorem norInstruction : Obligations.NorInstruction := by
  intro rd rs rt s
  exact ⟨⟨decode_norWord rs rt rd, Laws.rWord_mask rs rt rd 39⟩,
    fun shamt => exists_decode_rWord_eq_error rs rt rd shamt (by decide),
    _, _, exec_nor rd rs rt s, wroteRegister_writeReg_advance s rd _, fun _ hi => getLsbD_nor_iff _ _ hi⟩

/-- Settles O44: the constant has no bit from 16 on, so the and has none either. -/
theorem andiInstruction : Obligations.AndiInstruction := by
  intro rt rs imm s
  refine ⟨⟨decode_andiWord rs rt imm, Laws.iWord_mask 12 rs rt imm⟩,
    _, _, exec_andi rs rt imm s, wroteRegister_writeReg_advance s rt _, fun i _ => ?_, fun i hi => ?_⟩
  · rw [BitVec.getLsbD_and, getLsbD_zext32, Bool.and_eq_true]
  · rw [BitVec.getLsbD_and, getLsbD_zext32, BitVec.getLsbD_of_ge imm i hi, Bool.and_false]

/-- Settles O45: the constant has no bit from 16 on, so the or has the source's there. -/
theorem oriInstruction : Obligations.OriInstruction := by
  intro rt rs imm s
  refine ⟨⟨decode_oriWord rs rt imm, Laws.iWord_mask 13 rs rt imm⟩,
    _, _, exec_ori rs rt imm s, wroteRegister_writeReg_advance s rt _, fun i _ => ?_, fun i hi => ?_⟩
  · rw [BitVec.getLsbD_or, getLsbD_zext32, Bool.or_eq_true]
  · rw [BitVec.getLsbD_or, getLsbD_zext32, BitVec.getLsbD_of_ge imm i hi, Bool.or_false]

/-- Settles O46: `nor` with register 0 inverts its source, the example's included. -/
theorem notByNor : Obligations.NotByNor := by
  refine ⟨by decide, fun rd rs s => ⟨_, exec_nor_zero rd rs s, wroteRegister_writeReg_advance s rd _⟩,
    fun s hs => ⟨_, exec_nor_zero 8 9 s, ?_⟩⟩
  rw [State.advance_readReg, State.readReg_writeReg, if_neg (by decide), if_pos rfl, hs]
  decide

end Machine

end Sys2Proof
end

section
/-! The laws the statements about the shifts (spec/43_shift.md) need beyond `Sys2Proof/Laws/`, and the proofs of those statements. -/

namespace Sys2Proof

/-! ### The words of the shifts (R85 to R87) -/

section
variable (rs rt rd : RegNum) (shamt : Shamt)

theorem decode_sllWord : decode (rWord 0 0 rt rd shamt 0) = .ok (.sll rd rt shamt) := by
  simp [decode, decodeRFormat, decodeShift]

theorem decode_srlWord : decode (rWord 0 0 rt rd shamt 2) = .ok (.srl rd rt shamt) := by
  simp [decode, decodeRFormat, decodeShift]

theorem decode_sraWord : decode (rWord 0 0 rt rd shamt 3) = .ok (.sra rd rt shamt) := by
  simp [decode, decodeRFormat, decodeShift]

/-- With an `rs` that is not 0 the word of a shift is reserved (R51). -/
theorem exists_decode_shiftWord_eq_error {f : BitVec 6} (hf : f ∈ shiftFuncts) (hne : rs ≠ 0#5) :
    ∃ e, decode (rWord 0 rs rt rd shamt f) = .error e :=
  ⟨_, decode_eq_rsNotZero (opField_rWord ..) (by rwa [functField_rWord]) (by rwa [rsField_rWord])⟩

end

namespace Machine

/-! ### The bits of the values written

The library's reading of a bit of a shifted word carries a guard for the word's end; inside the word only the count decides. -/

section
variable (a : Word) (n : Nat) {i : Nat}

/-- Below the count there is a 0, from the count on the source. -/
theorem getLsbD_shiftLeft_eq_ite (hi : i < 32) :
    (a <<< n).getLsbD i = if i < n then false else a.getLsbD (i - n) := by
  rw [BitVec.getLsbD_shiftLeft]
  by_cases h : i < n
  · simp [h]
  · simp [h, hi]

/-- In place of a bit past the source's end there is a 0. -/
theorem getLsbD_ushiftRight_eq_ite : (a >>> n).getLsbD i = if i + n < 32 then a.getLsbD (i + n) else false := by
  rw [BitVec.getLsbD_ushiftRight, Nat.add_comm n i]
  split
  case isTrue => rfl
  case isFalse h => exact BitVec.getLsbD_of_ge a _ (Nat.le_of_not_lt h)

/-- In place of a bit past the source's end there is bit 31. -/
theorem getLsbD_sshiftRight_eq_ite (hi : i < 32) :
    (a.sshiftRight n).getLsbD i = if i + n < 32 then a.getLsbD (i + n) else a.getLsbD 31 := by
  rw [BitVec.getLsbD_sshiftRight, decide_eq_false (Nat.not_le_of_lt hi), Bool.not_false, Bool.true_and,
    Nat.add_comm n i, BitVec.msb_eq_getLsbD_last]

end

/-! ### What the instructions do: write one value, and advance -/

section
variable (rd rt : RegNum) (shamt : Shamt) (s : State)

theorem exec_sll : exec (.sll rd rt shamt) s = .next (s.writeReg rd (s.readReg rt <<< shamt.toNat)).advance := rfl

theorem exec_srl : exec (.srl rd rt shamt) s = .next (s.writeReg rd (s.readReg rt >>> shamt.toNat)).advance := rfl

theorem exec_sra : exec (.sra rd rt shamt) s = .next (s.writeReg rd ((s.readReg rt).sshiftRight shamt.toNat)).advance := rfl

end

/-! ### The statements -/

/-- Settles O47: the value written is the source shifted left, whose bits `getLsbD_shiftLeft_eq_ite` reads. -/
theorem sllInstruction : Obligations.SllInstruction := by
  intro rd rt shamt s
  exact ⟨⟨decode_sllWord rt rd shamt, Laws.shiftWord_mask rt rd shamt 0⟩,
    fun rs => exists_decode_shiftWord_eq_error rs rt rd shamt (by decide),
    _, _, exec_sll rd rt shamt s, wroteRegister_writeReg_advance s rd _, fun _ hi => getLsbD_shiftLeft_eq_ite _ _ hi⟩

/-- Settles O48: the value written is the source shifted right, whose bits `getLsbD_ushiftRight_eq_ite` reads. -/
theorem srlInstruction : Obligations.SrlInstruction := by
  intro rd rt shamt s
  exact ⟨⟨decode_srlWord rt rd shamt, Laws.shiftWord_mask rt rd shamt 2⟩,
    fun rs => exists_decode_shiftWord_eq_error rs rt rd shamt (by decide),
    _, _, exec_srl rd rt shamt s, wroteRegister_writeReg_advance s rd _, fun _ _ => getLsbD_ushiftRight_eq_ite _ _⟩

/-- Settles O49: the value written is the source shifted right with its sign, whose bits `getLsbD_sshiftRight_eq_ite` reads. -/
theorem sraInstruction : Obligations.SraInstruction := by
  intro rd rt shamt s
  exact ⟨⟨decode_sraWord rt rd shamt, Laws.shiftWord_mask rt rd shamt 3⟩,
    fun rs => exists_decode_shiftWord_eq_error rs rt rd shamt (by decide),
    _, _, exec_sra rd rt shamt s, wroteRegister_writeReg_advance s rd _, fun _ hi => getLsbD_sshiftRight_eq_ite _ _ hi⟩

end Machine

end Sys2Proof
end

section
/-! The laws the statements about exceptions (spec/60_exceptions.md) need beyond `Sys2Proof/Laws/`, and the proofs of those statements. -/

namespace Sys2Proof

/-! ### The word of a decoded instruction (R48) -/

section
variable {w : Word} {i : Instr}

theorem encode_eq_of_decodeThreeReg {mk : RegNum → RegNum → RegNum → Instr} {f : BitVec 6}
    (hmk : ∀ rd rs rt, encode (mk rd rs rt) = rWord 0 rs rt rd 0 f) (hop : opField w = 0#6) (hf : functField w = f)
    (h : decodeThreeReg mk w = .ok i) : encode i = w := by
  unfold decodeThreeReg at h
  split at h
  case isTrue hshamt =>
    cases h
    rw [hmk, ← hf]
    simpa [hop, hshamt] using rWord_fields w
  case isFalse => cases h

theorem encode_eq_of_decodeShift {mk : RegNum → RegNum → Shamt → Instr} {f : BitVec 6}
    (hmk : ∀ rd rt shamt, encode (mk rd rt shamt) = rWord 0 0 rt rd shamt f) (hop : opField w = 0#6)
    (hf : functField w = f) (h : decodeShift mk w = .ok i) : encode i = w := by
  unfold decodeShift at h
  split at h
  case isTrue hrs =>
    cases h
    rw [hmk, ← hf]
    simpa [hop, hrs] using rWord_fields w
  case isFalse => cases h

theorem encode_eq_of_decodeImm {mk : RegNum → RegNum → Imm → Instr} {op : BitVec 6}
    (hmk : ∀ rt rs imm, encode (mk rt rs imm) = iWord op rs rt imm) (hop : opField w = op)
    (h : decodeImm mk w = .ok i) : encode i = w := by
  cases h
  rw [hmk, ← hop]
  exact iWord_fields w

theorem encode_eq_of_decodeRFormat (hop : opField w = 0#6) (h : decodeRFormat w = .ok i) : encode i = w := by
  unfold decodeRFormat at h
  split_ifs at h with hadd hsub hand hor hxor hnor hsll hsrl hsra
  · exact encode_eq_of_decodeThreeReg (fun _ _ _ => rfl) hop hadd h
  · exact encode_eq_of_decodeThreeReg (fun _ _ _ => rfl) hop hsub h
  · exact encode_eq_of_decodeThreeReg (fun _ _ _ => rfl) hop hand h
  · exact encode_eq_of_decodeThreeReg (fun _ _ _ => rfl) hop hor h
  · exact encode_eq_of_decodeThreeReg (fun _ _ _ => rfl) hop hxor h
  · exact encode_eq_of_decodeThreeReg (fun _ _ _ => rfl) hop hnor h
  · exact encode_eq_of_decodeShift (fun _ _ _ => rfl) hop hsll h
  · exact encode_eq_of_decodeShift (fun _ _ _ => rfl) hop hsrl h
  · exact encode_eq_of_decodeShift (fun _ _ _ => rfl) hop hsra h

/-- An instruction has one word: the word it was decoded from is the one it encodes to. -/
theorem encode_eq_of_decode (h : decode w = .ok i) : encode i = w := by
  unfold decode at h
  split_ifs at h with hop haddi handi hori hlw hsw
  · exact encode_eq_of_decodeRFormat hop h
  · exact encode_eq_of_decodeImm (fun _ _ _ => rfl) haddi h
  · exact encode_eq_of_decodeImm (fun _ _ _ => rfl) handi h
  · exact encode_eq_of_decodeImm (fun _ _ _ => rfl) hori h
  · exact encode_eq_of_decodeImm (fun _ _ _ => rfl) hlw h
  · exact encode_eq_of_decodeImm (fun _ _ _ => rfl) hsw h

end

/-! ### The words the table of R48 admits are those that decode (R52) -/

theorem encodesRow (i : Instr) : Laws.EncodesRow.Statement i :=
  match i with
  | .sll rd rt shamt => Laws.EncodesRow.sll rd rt shamt
  | .srl rd rt shamt => Laws.EncodesRow.srl rd rt shamt
  | .sra rd rt shamt => Laws.EncodesRow.sra rd rt shamt
  | .add rd rs rt => Laws.EncodesRow.add rd rs rt
  | .sub rd rs rt => Laws.EncodesRow.sub rd rs rt
  | .and rd rs rt => Laws.EncodesRow.and rd rs rt
  | .or rd rs rt => Laws.EncodesRow.or rd rs rt
  | .xor rd rs rt => Laws.EncodesRow.xor rd rs rt
  | .nor rd rs rt => Laws.EncodesRow.nor rd rs rt
  | .addi rt rs imm => Laws.EncodesRow.addi rt rs imm
  | .andi rt rs imm => Laws.EncodesRow.andi rt rs imm
  | .ori rt rs imm => Laws.EncodesRow.ori rt rs imm
  | .lw rt rs imm => Laws.EncodesRow.lw rt rs imm
  | .sw rt rs imm => Laws.EncodesRow.sw rt rs imm

theorem wellFormedWord_encode (i : Instr) : wellFormedWord (encode i) = true := by
  obtain ⟨row, hrow, -, hmatch⟩ := encodesRow i
  exact List.any_eq_true.mpr ⟨row, hrow, beq_iff_eq.mpr hmatch⟩

/-- The `op` codes of `addi`, `andi`, `ori`, `lw`, `sw` (R49). -/
def immOps : List (BitVec 6) := [8#6, 12#6, 13#6, 35#6, 43#6]

theorem exists_decode_of_mem_immOps {w : Word} (hop : opField w ∈ immOps) : ∃ i, decode w = .ok i := by
  simp only [immOps, List.mem_cons, List.not_mem_nil, or_false] at hop
  obtain hop | hop | hop | hop | hop := hop
  all_goals exact ⟨_, by simp only [decode, hop]; rfl⟩

/-- The codes each row of the table fixes are those of an I-format instruction, of a three-register one, or of a shift. -/
theorem codes_of_mem_opcodeRows : ∀ row ∈ opcodeRows, opField row.value ∈ immOps ∨
    (opField row.value = 0#6 ∧ (functField row.value ∈ threeRegFuncts ∨ functField row.value ∈ shiftFuncts)) := by
  decide

theorem codes_of_wellFormedWord {w : Word} (hw : wellFormedWord w = true) : opField w ∈ immOps ∨
    (opField w = 0#6 ∧ (functField w ∈ threeRegFuncts ∨ functField w ∈ shiftFuncts)) := by
  obtain ⟨row, hrow, hmatch⟩ := List.any_eq_true.mp hw
  obtain ⟨hop, -, -, hfunct⟩ := fields_of_rowMatches hmatch
  obtain ⟨hopMask, hgroup⟩ := fixedFields_of_mem_opcodeRows row hrow
  rw [hopMask, BitVec.and_allOnes] at hop
  rw [hop]
  refine (codes_of_mem_opcodeRows row hrow).imp_right fun ⟨hzero, hcode⟩ => ⟨hzero, ?_⟩
  obtain ⟨hfunctMask, -⟩ := hgroup hzero
  rw [hfunctMask, BitVec.and_allOnes] at hfunct
  rwa [hfunct]

theorem exists_decode_of_wellFormedWord {w : Word} (hw : wellFormedWord w = true) : ∃ i, decode w = .ok i := by
  obtain himm | ⟨hop, hf | hf⟩ := codes_of_wellFormedWord hw
  · exact exists_decode_of_mem_immOps himm
  · obtain ⟨mk, hdecode⟩ := exists_decode_eq_decodeThreeReg hop hf
    exact ⟨_, by rw [hdecode, decodeThreeReg, if_pos ((mustBeZero_of_wellFormedWord hw hop).1 hf)]⟩
  · obtain ⟨mk, hdecode⟩ := exists_decode_eq_decodeShift hop hf
    exact ⟨_, by rw [hdecode, decodeShift, if_pos ((mustBeZero_of_wellFormedWord hw hop).2 hf)]⟩

theorem wellFormedWord_of_decode {w : Word} {i : Instr} (h : decode w = .ok i) : wellFormedWord w = true :=
  encode_eq_of_decode h ▸ wellFormedWord_encode i

theorem wellFormedWord_eq_false_iff {w : Word} : wellFormedWord w = false ↔ ∃ e, decode w = .error e := by
  constructor
  · intro hw
    cases h : decode w with
    | ok i => simp [wellFormedWord_of_decode h] at hw
    | error e => exact ⟨e, rfl⟩
  · rintro ⟨e, he⟩
    refine Bool.eq_false_iff.mpr fun hw => ?_
    obtain ⟨i, hi⟩ := exists_decode_of_wellFormedWord hw
    simp [hi] at he

namespace Machine

/-! ### The end of a run by a stop (R90, R91) -/

theorem tick_of_step_eq_refused {s : State} {q : Refusal} (h : step s = .refused q) :
    tick s = { s with status := .refused q } := by
  rw [tick, h, State.after_refused]

theorem step_refused (s : State) (q : Refusal) : step { s with status := .refused q } = .refused q := rfl

/-- No tick moves a state a refusal has stopped. -/
theorem ticks_refused (s : State) (q : Refusal) (k : Nat) :
    ticks k { s with status := .refused q } = { s with status := .refused q } :=
  ticks_of_tick_eq (tick_of_step_eq_refused (step_refused s q)) k

/-- A run that cannot leave a state that is not final never ends. -/
theorem not_endsFinal {s : State} (hstep : ∀ u, step s ≠ .next u) (hs : s.status ≠ .final) (t : State) :
    ¬ endsFinal s t := by
  rintro ⟨k, hk, ht⟩
  exact hs (eq_of_runSteps hstep hk ▸ ht)

/-! ### How fetching and decoding stop (R92, R93) -/

theorem fetch_eq_fault {s : State} {f : Fault} :
    fetch s = .fault f ↔ aligned s.pc = false ∧ f = .addressErrorFetch s.pc := by
  cases ha : aligned s.pc
  case false => simp [fetch_misaligned ha, eq_comm]
  case true =>
    cases ht : s.params.inText s.pc
    case false => simp [fetch_outside ha ht]
    case true => simp [fetch_inText ha ht]

theorem fetch_eq_refused {s : State} {q : Refusal} :
    fetch s = .refused q ↔ aligned s.pc = true ∧ s.params.inText s.pc = false ∧ q = .fetchOutsideText s.pc := by
  cases ha : aligned s.pc
  case false => simp [fetch_misaligned ha]
  case true =>
    cases ht : s.params.inText s.pc
    case false => simp [fetch_outside ha ht, eq_comm]
    case true => simp [fetch_inText ha ht]

theorem decodeFetched_ne_fault (w : Word) (f : Fault) : decodeFetched w ≠ .fault f := by
  cases h : decode w with
  | ok i => simp [decodeFetched_ok h]
  | error e => simp [decodeFetched_error h]

theorem decodeFetched_eq_refused {w : Word} {q : Refusal} :
    decodeFetched w = .refused q ↔ wellFormedWord w = false ∧ q = .reservedInstruction w := by
  rw [wellFormedWord_eq_false_iff]
  cases h : decode w with
  | ok i => simp [decodeFetched_ok h]
  | error e => simp [decodeFetched_error h, eq_comm]

theorem fetchInstr_eq_fault {s : State} {f : Fault} : fetchInstr s = .fault f ↔ fetch s = .fault f := by
  simp [fetchInstr, andThen_eq_fault, decodeFetched_ne_fault]

theorem fetchInstr_eq_refused {s : State} {q : Refusal} :
    fetchInstr s = .refused q ↔ fetch s = .refused q ∨
      ∃ w, fetch s = .next w ∧ wellFormedWord w = false ∧ q = .reservedInstruction w := by
  simp only [fetchInstr, andThen_eq_refused, decodeFetched_eq_refused]

/-! ### How an instruction stops (R92, R93) -/

theorem writeUnlessOverflow_eq_fault {overflows : Bool} {i : Instr} {s : State} {rd : RegNum} {v : Word} {f : Fault} :
    writeUnlessOverflow overflows i s rd v = .fault f ↔ overflows = true ∧ f = .integerOverflow s.pc (encode i) := by
  cases overflows
  case false => simp [writeUnlessOverflow_false]
  case true => simp [writeUnlessOverflow_true, eq_comm]

theorem writeUnlessOverflow_ne_refused (overflows : Bool) (i : Instr) (s : State) (rd : RegNum) (v : Word)
    (q : Refusal) : writeUnlessOverflow overflows i s rd v ≠ .refused q := by
  cases overflows
  case false => simp [writeUnlessOverflow_false]
  case true => simp [writeUnlessOverflow_true]

theorem exec_eq_fault {i : Instr} {s : State} {f : Fault} : exec i s = .fault f ↔
    (∃ rd rs rt, i = .add rd rs rt ∧ addOverflows (s.readReg rs) (s.readReg rt) = true ∧
      f = .integerOverflow s.pc (encode i)) ∨
    (∃ rd rs rt, i = .sub rd rs rt ∧ subOverflows (s.readReg rs) (s.readReg rt) = true ∧
      f = .integerOverflow s.pc (encode i)) ∨
    (∃ rt rs imm, i = .addi rt rs imm ∧ addOverflows (s.readReg rs) (sext32 imm) = true ∧
      f = .integerOverflow s.pc (encode i)) ∨
    (∃ rt rs imm, i = .lw rt rs imm ∧ (effectiveAddress s rs imm).toNat % 4 ≠ 0 ∧
      f = .addressErrorLoad (effectiveAddress s rs imm)) ∨
    (∃ rt rs imm, i = .sw rt rs imm ∧ (effectiveAddress s rs imm).toNat % 4 ≠ 0 ∧
      f = .addressErrorStore (effectiveAddress s rs imm)) := by
  cases i with
  | add rd rs rt => simp [exec_add, writeUnlessOverflow_eq_fault]
  | sub rd rs rt => simp [exec_sub, writeUnlessOverflow_eq_fault]
  | addi rt rs imm => simp [exec_addi, writeUnlessOverflow_eq_fault, sext32]
  | lw rt rs imm => simp [exec_lw, andThen_eq_fault, checkAccess_eq_fault, aligned_eq_false_iff, addressError]
  | sw rt rs imm => simp [exec_sw, andThen_eq_fault, checkAccess_eq_fault, aligned_eq_false_iff, addressError]
  | sll rd rt shamt => simp [exec_sll]
  | srl rd rt shamt => simp [exec_srl]
  | sra rd rt shamt => simp [exec_sra]
  | and rd rs rt => simp [exec_and]
  | or rd rs rt => simp [exec_or]
  | xor rd rs rt => simp [exec_xor]
  | nor rd rs rt => simp [exec_nor]
  | andi rt rs imm => simp [exec_andi]
  | ori rt rs imm => simp [exec_ori]

/-- Only `lw` and `sw` are refused, and only by the checks on their effective address. -/
theorem exec_eq_refused {i : Instr} {s : State} {q : Refusal} : exec i s = .refused q ↔
    ∃ rt rs imm kind, ((i = .lw rt rs imm ∧ kind = .load) ∨ (i = .sw rt rs imm ∧ kind = .store)) ∧
      checkAccess s kind (effectiveAddress s rs imm) = .refused q := by
  cases i with
  | lw rt rs imm => simp [exec_lw, andThen_eq_refused]
  | sw rt rs imm => simp [exec_sw, andThen_eq_refused]
  | add rd rs rt => simp [exec_add, writeUnlessOverflow_ne_refused]
  | sub rd rs rt => simp [exec_sub, writeUnlessOverflow_ne_refused]
  | addi rt rs imm => simp [exec_addi, writeUnlessOverflow_ne_refused]
  | sll rd rt shamt => simp [exec_sll]
  | srl rd rt shamt => simp [exec_srl]
  | sra rd rt shamt => simp [exec_sra]
  | and rd rs rt => simp [exec_and]
  | or rd rs rt => simp [exec_or]
  | xor rd rs rt => simp [exec_xor]
  | nor rd rs rt => simp [exec_nor]
  | andi rt rs imm => simp [exec_andi]
  | ori rt rs imm => simp [exec_ori]

/-! ### How a step stops: in fetching, in decoding, or in the instruction (R112) -/

theorem atEnd_eq_false_iff (s : State) : s.atEnd = false ↔ s.pc.toNat ≠ s.params.textEnd := by simp [State.atEnd]

theorem step_atEnd {s : State} (hr : s.status = .running) (he : s.atEnd = true) : step s = .next s.finish := by
  simp [step, hr, he]

section
variable {s : State} (hr : s.status = .running)
include hr

theorem step_eq_fault {f : Fault} : step s = .fault f ↔ s.pc.toNat ≠ s.params.textEnd ∧
    (fetch s = .fault f ∨ ∃ w i, fetch s = .next w ∧ decode w = .ok i ∧ exec i s = .fault f) := by
  rw [← atEnd_eq_false_iff]
  cases he : s.atEnd
  case true => simp [step_atEnd hr he]
  case false =>
    rw [step_running hr he, andThen_eq_fault, fetchInstr_eq_fault]
    simp only [fetchInstr_eq_next, true_and]
    refine or_congr_right ⟨?_, ?_⟩
    · rintro ⟨i, ⟨w, hw, hi⟩, hexec⟩
      exact ⟨w, i, hw, hi, hexec⟩
    · rintro ⟨w, i, hw, hi, hexec⟩
      exact ⟨i, ⟨w, hw, hi⟩, hexec⟩

theorem step_eq_refused {q : Refusal} : step s = .refused q ↔ s.pc.toNat ≠ s.params.textEnd ∧
    (fetch s = .refused q ∨ ∃ w, fetch s = .next w ∧ ((wellFormedWord w = false ∧ q = .reservedInstruction w) ∨
      ∃ i, decode w = .ok i ∧ exec i s = .refused q)) := by
  rw [← atEnd_eq_false_iff]
  cases he : s.atEnd
  case true => simp [step_atEnd hr he]
  case false =>
    rw [step_running hr he, andThen_eq_refused, fetchInstr_eq_refused]
    simp only [fetchInstr_eq_next, true_and]
    constructor
    · rintro ((hf | ⟨w, hw, hq⟩) | ⟨i, ⟨w, hw, hi⟩, hexec⟩)
      · exact .inl hf
      · exact .inr ⟨w, hw, .inl hq⟩
      · exact .inr ⟨w, hw, .inr ⟨i, hi, hexec⟩⟩
    · rintro (hf | ⟨w, hw, hq | ⟨i, hi, hexec⟩⟩)
      · exact .inl (.inl hf)
      · exact .inl (.inr ⟨w, hw, hq⟩)
      · exact .inr ⟨i, ⟨w, hw, hi⟩, hexec⟩

end

/-! ### The statements -/

/-- Settles O51: the faulted state answers its fault again, and so neither it nor the state before it has a run to a final one. -/
theorem faultChangesOnlyStatus : Obligations.FaultChangesOnlyStatus := by
  intro s f hr hstep
  rw [tick_of_step_eq_fault hstep]
  have hstopped : ∀ u, step { s with status := .faulted f } ≠ .next u := by simp [step_faulted]
  exact ⟨rfl, ticks_faulted s f, hstopped,
    fun t => ⟨not_endsFinal hstopped (by simp) t, not_endsFinal (by simp [hstep]) (by simp [hr]) t⟩⟩

/-- Settles O52: the refused state answers its refusal again, and so neither it nor the state before it has a run to a final one. -/
theorem refusalChangesOnlyStatus : Obligations.RefusalChangesOnlyStatus := by
  intro s q hr hstep
  rw [tick_of_step_eq_refused hstep]
  have hstopped : ∀ u, step { s with status := .refused q } ≠ .next u := by simp [step_refused]
  exact ⟨rfl, ticks_refused s q, hstopped,
    fun t => ⟨not_endsFinal hstopped (by simp) t, not_endsFinal (by simp [hstep]) (by simp [hr]) t⟩⟩

/-- Settles O53: decoding never faults, and an instruction that faults records its own word, which is the word fetched. -/
theorem faultsAreExactlyTheListedOnes : Obligations.FaultsAreExactlyTheListedOnes := by
  intro s f hr
  rw [step_eq_fault hr, fetch_eq_fault, aligned_eq_false_iff]
  refine and_congr_right fun _ => or_congr_right (exists_congr fun w => exists_congr fun i =>
    and_congr_right fun _ => and_congr_right fun hdecode => ?_)
  rw [exec_eq_fault, encode_eq_of_decode hdecode]

/-- Settles O54: past fetching and decoding only the checks of a memory access refuse. -/
theorem refusalsAreExactlyTheListedOnes : Obligations.RefusalsAreExactlyTheListedOnes := by
  intro s q hr
  rw [step_eq_refused hr, fetch_eq_refused, aligned_iff]
  refine and_congr_right fun _ => or_congr_right (exists_congr fun w => and_congr_right fun _ => or_congr_right ?_)
  simp only [exec_eq_refused, checkAccess_eq_refused, aligned_iff, regionOf_eq_text, regionOf_eq_unmapped, and_assoc]
  constructor
  · rintro ⟨i, hdecode, rt, rs, imm, kind, ⟨rfl, hkind⟩ | ⟨rfl, hkind⟩, hcheck⟩
    · exact ⟨rt, rs, imm, kind, .inl ⟨hdecode, hkind⟩, hcheck⟩
    · exact ⟨rt, rs, imm, kind, .inr ⟨hdecode, hkind⟩, hcheck⟩
  · rintro ⟨rt, rs, imm, kind, ⟨hdecode, hkind⟩ | ⟨hdecode, hkind⟩, hcheck⟩
    · exact ⟨_, hdecode, rt, rs, imm, kind, .inl ⟨rfl, hkind⟩, hcheck⟩
    · exact ⟨_, hdecode, rt, rs, imm, kind, .inr ⟨rfl, hkind⟩, hcheck⟩

end Machine

end Sys2Proof
end

section
/-! The laws the statements about launches (spec/70_reset_and_hazards.md) need beyond `Sys2Proof/Laws/`, and the proofs of those
statements. -/

namespace Sys2Proof.Machine

/-! ### The constraints on the parameters (R110) -/

theorem dataMapped_iff {p : Params} {a : Word} :
    p.dataMapped a = true ↔ ∃ r ∈ p.dataRegions, r.covers (a.toNat / 4) = true :=
  List.any_eq_true

theorem covers_iff {r : DataRegion} {k : Nat} : r.covers k = true ↔ r.firstWord ≤ k ∧ k < r.firstWord + r.words := by
  simp [DataRegion.covers]

theorem wf_iff_regionOffText {p : Params} :
    p.wf = true ↔ p.textBase.toNat % 4 = 0 ∧ p.textEnd < 2 ^ 32 ∧ ∀ r ∈ p.dataRegions, p.regionOffText r = true := by
  simp [Params.wf, Params.textAligned, Params.textFits, and_assoc]

/-- A region passes the check when no word of it is in the text: one that fails it overlaps the text at the later of its own
first word and the text's. -/
theorem regionOffText_of_forall_covers {p : Params} {r : DataRegion} (hbase : p.textBase.toNat % 4 = 0)
    (hoff : ∀ k, r.covers k = true → ¬ (p.textBase.toNat ≤ 4 * k ∧ 4 * k < p.textEnd)) : p.regionOffText r = true := by
  by_contra hfail
  simp only [Params.regionOffText, Bool.or_eq_true, List.isEmpty_iff_length_eq_zero, beq_iff_eq, decide_eq_true_eq,
    not_or] at hfail
  obtain ⟨⟨⟨hprogram, hwords⟩, hlow⟩, hhigh⟩ := hfail
  have hcommon := hoff (max r.firstWord (p.textBase.toNat / 4)) (covers_iff.mpr (by omega))
  unfold Params.textEnd at hcommon hhigh
  omega

/-- The check on the parameters in terms of addresses: the text is aligned and fits, and no mapped address is in it. -/
theorem wf_iff_not_inText {p : Params} :
    p.wf = true ↔ p.textBase.toNat % 4 = 0 ∧ p.textEnd < 2 ^ 32 ∧
      ∀ a : Word, aligned a = true → p.dataMapped a = true → p.inText a = false := by
  constructor
  · intro hp
    obtain ⟨hbase, hfits, -⟩ := wf_iff_regionOffText.mp hp
    exact ⟨hbase, hfits, fun a => not_inText_of_dataMapped hp⟩
  · rintro ⟨hbase, hfits, hoff⟩
    refine wf_iff_regionOffText.mpr
      ⟨hbase, hfits, fun r hr => regionOffText_of_forall_covers hbase fun k hk htext => ?_⟩
    have haddress : (BitVec.ofNat 32 (4 * k)).toNat = 4 * k := by
      rw [BitVec.toNat_ofNat]
      exact Nat.mod_eq_of_lt (by omega)
    have hmapped : p.dataMapped (BitVec.ofNat 32 (4 * k)) = true :=
      dataMapped_iff.mpr ⟨r, hr, by rwa [haddress, Nat.mul_div_cancel_left k (by decide)]⟩
    have hout := hoff _ ((aligned_iff _).mpr (by omega)) hmapped
    rw [← Bool.not_eq_true, inText_iff, haddress] at hout
    exact hout htext

/-! ### The launch state (R110) -/

theorem readReg_ofNat_succ (s : State) (k : Fin 31) : s.readReg (BitVec.ofNat 5 (k.val + 1)) = s.regs[k.val] := by
  have hnumber : (BitVec.ofNat 5 (k.val + 1)).toNat = k.val + 1 := by
    rw [BitVec.toNat_ofNat]
    exact Nat.mod_eq_of_lt (by omega)
  have hne : BitVec.ofNat 5 (k.val + 1) ≠ 0#5 := fun h => by simp [h] at hnumber
  simp [State.readReg, hne, hnumber]

/-- A launch begins at the first address of the text, which is aligned, and is not final. -/
theorem inv_of_isLaunch {s : State} (h : s.isLaunch) : s.inv := by
  obtain ⟨p, regs0, mem0, hp, hmem, rfl, hmapped⟩ := h
  obtain ⟨hbase, -, -⟩ := wf_iff_not_inText.mp hp
  exact ⟨hp, hmem, hmapped, (aligned_iff _).mpr hbase, le_rfl, Nat.le_add_right _ _, by simp [State.launch]⟩

/-! ### The statements -/

/-- Settles O19: the check on the regions says of every mapped address that it is not in the text. -/
theorem launchState : Obligations.LaunchState := by
  refine ⟨fun p => ?_,
    fun p regs0 mem0 => ⟨rfl, rfl, State.readReg_zero _, readReg_ofNat_succ _, fun _ => rfl⟩, fun s => inv_of_isLaunch⟩
  simp only [wf_iff_not_inText, ← Bool.not_eq_true, inText_iff, Params.textEnd]

end Sys2Proof.Machine
end

section
/-! The laws the statements about the codes of all fourteen instructions (spec/30_encoding.md) need beyond `Sys2Proof/Laws/`, and
the proofs of those statements. -/

namespace Sys2Proof

/-! ### Every instruction decodes from its own word (R48) -/

theorem decode_encode (i : Instr) : decode (encode i) = .ok i :=
  match i with
  | .sll rd rt shamt => decode_sllWord rt rd shamt
  | .srl rd rt shamt => decode_srlWord rt rd shamt
  | .sra rd rt shamt => decode_sraWord rt rd shamt
  | .add rd rs rt => decode_addWord rs rt rd
  | .sub rd rs rt => decode_subWord rs rt rd
  | .and rd rs rt => decode_andWord rs rt rd
  | .or rd rs rt => decode_orWord rs rt rd
  | .xor rd rs rt => decode_xorWord rs rt rd
  | .nor rd rs rt => decode_norWord rs rt rd
  | .addi rt rs imm => decode_addiWord rs rt imm
  | .andi rt rs imm => decode_andiWord rs rt imm
  | .ori rt rs imm => decode_oriWord rs rt imm
  | .lw rt rs imm => decode_lwWord rs rt imm
  | .sw rt rs imm => decode_swWord rs rt imm

theorem encode_injective : Function.Injective encode := fun i j h =>
  Except.ok.inj <| calc
    .ok i = decode (encode i) := (decode_encode i).symm
    _ = decode (encode j) := by rw [h]
    _ = .ok j := decode_encode j

/-- The words that decode are the words of the instructions. -/
theorem setOf_decode_eq_range_encode : {w : Word | ∃ i, decode w = .ok i} = Set.range encode :=
  Set.ext fun _ => exists_congr fun i => ⟨encode_eq_of_decode, fun h => h ▸ decode_encode i⟩

/-! ### The rows of the match and mask table (R48) -/

/-- Two rows of the table differ at a bit that both of them fix. -/
theorem eq_of_values_agree : ∀ r ∈ opcodeRows, ∀ q ∈ opcodeRows, r.value &&& q.mask = q.value &&& r.mask → r = q := by
  decide

theorem eq_of_rowMatches {w : Word} {r q : OpcodeRow} (hr : r ∈ opcodeRows) (hq : q ∈ opcodeRows)
    (hrw : rowMatches r w = true) (hqw : rowMatches q w = true) : r = q := by
  refine eq_of_values_agree r hr q hq ?_
  rw [← beq_iff_eq.mp hrw, ← beq_iff_eq.mp hqw, BitVec.and_assoc, BitVec.and_assoc, BitVec.and_comm r.mask]

theorem exists_row_of_decode {w : Word} {i : Instr} (h : decode w = .ok i) :
    ∃ row ∈ opcodeRows, row.name = mnemonic i ∧ rowMatches row w = true := by
  obtain ⟨row, hrow, hname, hmatch⟩ := encodesRow i
  exact ⟨row, hrow, hname, beq_iff_eq.mpr (encode_eq_of_decode h ▸ hmatch)⟩

/-- A word that matches a row decodes, and the row of what it decodes to matches it too, so it is the same row. -/
theorem exists_decode_of_rowMatches {w : Word} {row : OpcodeRow} (hrow : row ∈ opcodeRows)
    (hmatch : rowMatches row w = true) : ∃ i, decode w = .ok i ∧ mnemonic i = row.name := by
  obtain ⟨i, hdecode⟩ := exists_decode_of_wellFormedWord (List.any_eq_true.mpr ⟨row, hrow, hmatch⟩)
  obtain ⟨own, hown, hname, hownMatch⟩ := exists_row_of_decode hdecode
  exact ⟨i, hdecode, eq_of_rowMatches hown hrow hownMatch hmatch ▸ hname.symm⟩

/-! ### The value of a word put together from fields (R43) -/

theorem toNat_iWord (op : BitVec 6) (rs rt : RegNum) (imm : Imm) :
    (iWord op rs rt imm).toNat = op.toNat * 2 ^ 26 + rs.toNat * 2 ^ 21 + rt.toNat * 2 ^ 16 + imm.toNat := by
  simp only [iWord, toNat_append_eq_mul_add]
  omega

/-! ### How many instructions there are

Three shifts, six three-register instructions and five with a constant, each with all the values of its operands. -/

/-- The kind of an instruction among those of its form, and its operands. -/
abbrev InstrIndex : Type :=
  (Fin 3 × RegNum × RegNum × Shamt) ⊕ (Fin 6 × RegNum × RegNum × RegNum) ⊕ (Fin 5 × RegNum × RegNum × Imm)

def Instr.index : Instr → InstrIndex
  | .sll rd rt shamt => .inl (0, rd, rt, shamt)
  | .srl rd rt shamt => .inl (1, rd, rt, shamt)
  | .sra rd rt shamt => .inl (2, rd, rt, shamt)
  | .add rd rs rt => .inr (.inl (0, rd, rs, rt))
  | .sub rd rs rt => .inr (.inl (1, rd, rs, rt))
  | .and rd rs rt => .inr (.inl (2, rd, rs, rt))
  | .or rd rs rt => .inr (.inl (3, rd, rs, rt))
  | .xor rd rs rt => .inr (.inl (4, rd, rs, rt))
  | .nor rd rs rt => .inr (.inl (5, rd, rs, rt))
  | .addi rt rs imm => .inr (.inr (0, rt, rs, imm))
  | .andi rt rs imm => .inr (.inr (1, rt, rs, imm))
  | .ori rt rs imm => .inr (.inr (2, rt, rs, imm))
  | .lw rt rs imm => .inr (.inr (3, rt, rs, imm))
  | .sw rt rs imm => .inr (.inr (4, rt, rs, imm))

def Instr.ofIndex : InstrIndex → Instr
  | .inl (0, rd, rt, shamt) => .sll rd rt shamt
  | .inl (1, rd, rt, shamt) => .srl rd rt shamt
  | .inl (2, rd, rt, shamt) => .sra rd rt shamt
  | .inr (.inl (0, rd, rs, rt)) => .add rd rs rt
  | .inr (.inl (1, rd, rs, rt)) => .sub rd rs rt
  | .inr (.inl (2, rd, rs, rt)) => .and rd rs rt
  | .inr (.inl (3, rd, rs, rt)) => .or rd rs rt
  | .inr (.inl (4, rd, rs, rt)) => .xor rd rs rt
  | .inr (.inl (5, rd, rs, rt)) => .nor rd rs rt
  | .inr (.inr (0, rt, rs, imm)) => .addi rt rs imm
  | .inr (.inr (1, rt, rs, imm)) => .andi rt rs imm
  | .inr (.inr (2, rt, rs, imm)) => .ori rt rs imm
  | .inr (.inr (3, rt, rs, imm)) => .lw rt rs imm
  | .inr (.inr (4, rt, rs, imm)) => .sw rt rs imm

theorem Instr.ofIndex_index (i : Instr) : Instr.ofIndex i.index = i := by
  cases i <;> rfl

theorem Instr.index_ofIndex (c : InstrIndex) : (Instr.ofIndex c).index = c := by
  obtain ⟨k, rd, rt, shamt⟩ | ⟨k, rd, rs, rt⟩ | ⟨k, rt, rs, imm⟩ := c
  all_goals fin_cases k <;> rfl

theorem natCard_bitVec (n : ℕ) : Nat.card (BitVec n) = 2 ^ n := by
  rw [Nat.card_congr BitVec.equivFin.toEquiv, Nat.card_eq_fintype_card, Fintype.card_fin]

theorem natCard_instr : Nat.card Instr = 3 * 2 ^ 15 + 6 * 2 ^ 15 + 5 * 2 ^ 26 := by
  rw [Nat.card_congr ⟨Instr.index, Instr.ofIndex, Instr.ofIndex_index, Instr.index_ofIndex⟩]
  simp only [Nat.card_sum, Nat.card_prod, Nat.card_fin, natCard_bitVec]
  rfl

/-! ### The statements -/

/-- Settles O1: each form's decoder reads back the fields its encoder wrote. -/
theorem decodeOfEncode : Obligations.DecodeOfEncode := decode_encode

/-- Settles O2: the fields the decoder reads and those it fixes are all of the word. -/
theorem encodeOfDecode : Obligations.EncodeOfDecode := fun _ _ => encode_eq_of_decode

/-- Settles O3: the row that names an instruction matches its word, and no other row does. -/
theorem decodeAgreesWithMatchTable : Obligations.DecodeAgreesWithMatchTable := fun _ =>
  ⟨fun _ => exists_row_of_decode, fun _ => exists_decode_of_rowMatches⟩

/-- Settles O4: a word that matched two rows would have both values at the bits both fix. -/
theorem matchPatternsDisjoint : Obligations.MatchPatternsDisjoint := fun _ _ hr _ hq => eq_of_rowMatches hr hq

/-- Settles O6: the value is that of the appended fields, and a word is the word of its own fields by `iWord_fields`. -/
theorem iFormatWordValue : Obligations.IFormatWordValue :=
  ⟨toNat_iWord, iWord_fields⟩

/-- Settles O9: the words that decode are as many as the instructions, since different instructions have different words. -/
theorem admittedWordCount : Obligations.AdmittedWordCount := by
  unfold Obligations.AdmittedWordCount
  rw [setOf_decode_eq_range_encode, ← Set.image_univ, Set.ncard_image_of_injective _ encode_injective, Set.ncard_univ,
    natCard_instr]

/-- Settles O10: each of the words is evaluated. -/
theorem specWordsDecode : Obligations.SpecWordsDecode := by
  unfold Obligations.SpecWordsDecode
  decide

end Sys2Proof
end

section
/-! The laws the statements about steps and runs (spec/10_state.md, spec/70_reset_and_hazards.md) need beyond `Sys2Proof/Laws/`, and
the proofs of those statements. -/

namespace Sys2Proof.Machine

/-! ### The order of the checks of a step (R95, R112) -/

/-- A pc in the text is not at its end. -/
theorem atEnd_eq_false_of_inText {s : State} (ht : s.params.inText s.pc = true) : s.atEnd = false :=
  (atEnd_eq_false_iff s).mpr (Nat.ne_of_lt ((inText_iff _ _).mp ht).2)

section
variable {s : State} (hr : s.status = .running)
include hr

/-- Past the checks a step is the fetched instruction and nothing else. -/
theorem step_eq_exec {w : Word} {i : Instr} (he : s.atEnd = false) (hfetch : fetch s = .next w)
    (hdecode : decode w = .ok i) : step s = exec i s := by
  rw [step_running hr he, fetchInstr_eq_next.mpr ⟨w, hfetch, hdecode⟩, andThen_next]

theorem step_eq_reservedInstruction {w : Word} (he : s.atEnd = false) (hfetch : fetch s = .next w)
    (hw : wellFormedWord w = false) : step s = .refused (.reservedInstruction w) :=
  (step_eq_refused hr).mpr ⟨(atEnd_eq_false_iff s).mp he, .inr ⟨w, hfetch, .inl ⟨hw, rfl⟩⟩⟩

theorem tick_atEnd (he : s.atEnd = true) : tick s = s.finish := by
  rw [tick, step_atEnd hr he, State.after_next]

end

theorem tick_final {s : State} (hs : s.status = .final) : tick s = s := by
  simp [tick, step, answerOfStatus, hs]

/-! ### What an instruction does to the pc, the status and the memory (R15, R19) -/

section
variable {i : Instr} {s t : State} (h : exec i s = .next t)
include h

theorem exec_pc : t.pc = s.pc + 4#32 := by
  obtain ⟨d, v, -, rfl⟩ | ⟨rt, rs, imm, -, -, -, rfl⟩ := exec_eq_next h <;> simp

theorem exec_status : t.status = s.status := by
  obtain ⟨d, v, -, rfl⟩ | ⟨rt, rs, imm, -, -, -, rfl⟩ := exec_eq_next h <;> simp

theorem exec_mem_wf (hm : s.mem.wf) : t.mem.wf := by
  obtain ⟨d, v, -, rfl⟩ | ⟨rt, rs, imm, -, -, -, rfl⟩ := exec_eq_next h
  · simpa using hm
  · exact Memory.wf_writeWord hm _ _ _

end

/-- A stop leaves the pc where it was (R90, R91). -/
theorem after_pc_of_stop {s : State} {o : Answer State} (h : ∀ t, o ≠ .next t) : (s.after o).pc = s.pc := by
  cases o with
  | next t => exact absurd rfl (h t)
  | fault f => rfl
  | refused q => rfl

/-- The bytes a store of a word lists lie in mapped data, as the word's address does. -/
theorem memMapped_writeWord {s : State} {a : Word} (hp : s.params.textAligned = true) (hm : s.memMapped)
    (ha : aligned a = true) (hd : s.params.regionOf a = .data) (v : Word) : (s.writeWord a v).memMapped := by
  intro c hc
  obtain ⟨k, hk, hck⟩ | hold := Memory.mem_writeWord hc
  · rw [hck, State.writeWord_params, regionOf_word hp ha hk]
    exact ⟨aligned_add_lt ha hk, hd⟩
  · exact hm c hold

theorem exec_memMapped {i : Instr} {s t : State} (h : exec i s = .next t) (hp : s.params.textAligned = true)
    (hm : s.memMapped) : t.memMapped := by
  obtain ⟨d, v, -, rfl⟩ | ⟨rt, rs, imm, -, ha, hd, rfl⟩ := exec_eq_next h
  · simpa [State.memMapped] using hm
  · exact memMapped_writeWord hp hm ha hd _

/-! ### The pc in a run -/

theorem textEnd_mod_four {p : Params} (hp : p.wf = true) : p.textEnd % 4 = 0 := by
  obtain ⟨hbase, -, -⟩ := wf_iff_regionOffText.mp hp
  unfold Params.textEnd
  omega

section
variable {s : State} (h : s.inv)
include h

/-- Before the end of the text there is room for one more word. -/
theorem pc_add_four_le_textEnd (he : s.atEnd = false) : s.pc.toNat + 4 ≤ s.params.textEnd := by
  obtain ⟨hp, -, -, ha, -, hhigh, -⟩ := h
  have hend := textEnd_mod_four hp
  have ha := (aligned_iff _).mp ha
  have hne := (atEnd_eq_false_iff s).mp he
  omega

/-- Before the end of the text `pc + 4` does not wrap. -/
theorem toNat_pc_add_four (he : s.atEnd = false) : (s.pc + 4#32).toNat = s.pc.toNat + 4 := by
  have hroom := pc_add_four_le_textEnd h he
  obtain ⟨hp, -⟩ := h
  obtain ⟨-, hfits, -⟩ := wf_iff_regionOffText.mp hp
  rw [BitVec.toNat_add]
  exact Nat.mod_eq_of_lt (lt_of_le_of_lt hroom hfits)

/-- Before the end of the text a fetch answers. -/
theorem exists_fetch_of_inv (he : s.atEnd = false) : ∃ w, fetch s = .next w := by
  have hroom := pc_add_four_le_textEnd h he
  obtain ⟨-, -, -, ha, hlow, -, -⟩ := h
  exact ⟨_, fetch_inText ha ((inText_iff _ _).mpr ⟨hlow, by omega⟩)⟩

/-! ### The invariant (R18, R22, R36, R113) -/

theorem inv_finish (he : s.atEnd = true) : s.finish.inv := by
  obtain ⟨hp, hwf, hmapped, ha, hlow, hhigh, -⟩ := h
  exact ⟨hp, hwf, hmapped, ha, hlow, hhigh, fun _ => by simpa [State.atEnd] using he⟩

theorem inv_of_exec {i : Instr} {t : State} (he : s.atEnd = false) (hexec : exec i s = .next t) : t.inv := by
  have hroom := pc_add_four_le_textEnd h he
  have hpc : t.pc.toNat = s.pc.toNat + 4 := exec_pc hexec ▸ toNat_pc_add_four h he
  obtain ⟨hp, hwf, hmapped, ha, hlow, -, hfinal⟩ := h
  have ha := (aligned_iff _).mp ha
  have hparams := exec_params hexec
  refine ⟨hparams ▸ hp, exec_mem_wf hexec hwf, exec_memMapped hexec (textAligned_of_wf hp) hmapped,
    (aligned_iff _).mpr (by omega), by rw [hparams]; omega, by rw [hparams]; omega, fun hs => ?_⟩
  exact absurd (hfinal (exec_status hexec ▸ hs)) ((atEnd_eq_false_iff s).mp he)

theorem inv_of_step {t : State} (hstep : step s = .next t) : t.inv := by
  obtain ⟨-, rfl⟩ | ⟨-, he, rfl⟩ | ⟨-, he, i, -, hexec⟩ := step_eq_next hstep
  · exact h
  · exact inv_finish h he
  · exact inv_of_exec h he hexec

/-! ### One step of a run that is not at its end -/

theorem step_before_end {t : State} (hr : s.status = .running) (he : s.atEnd = false) (hstep : step s = .next t) :
    t.status = .running ∧ t.params = s.params ∧ t.pc.toNat = s.pc.toNat + 4 := by
  rw [step_running hr he] at hstep
  obtain ⟨i, -, hexec⟩ := andThen_eq_next.mp hstep
  exact ⟨(exec_status hexec).trans hr, exec_params hexec, exec_pc hexec ▸ toNat_pc_add_four h he⟩

theorem atEnd_iff_remaining_eq_zero : s.atEnd = true ↔ s.remaining = 0 := by
  obtain ⟨hp, -, -, ha, -, hhigh, -⟩ := h
  have hend := textEnd_mod_four hp
  have ha := (aligned_iff _).mp ha
  simp only [State.atEnd, beq_iff_eq, State.remaining]
  omega

theorem remaining_step {t : State} {n : Nat} (hr : s.status = .running) (hn : s.remaining = n + 1)
    (hstep : step s = .next t) :
    t.inv ∧ t.status = .running ∧ t.remaining = n ∧ t.pc.toNat = s.pc.toNat + 4 := by
  have he : s.atEnd = false := Bool.eq_false_iff.mpr fun he => by
    have := (atEnd_iff_remaining_eq_zero h).mp he
    omega
  obtain ⟨ht, hparams, hpc⟩ := step_before_end h hr he hstep
  refine ⟨inv_of_step h hstep, ht, ?_, hpc⟩
  unfold State.remaining at hn ⊢
  rw [hparams, hpc]
  omega

end

/-! ### Whole runs (R113, R121) -/

/-- A run has come to an end: final at `TEXT_END`, or at a stop. -/
def Ended (o : Answer State) : Prop :=
  (∃ t, o = .next t ∧ t.status = .final ∧ t.pc.toNat = t.params.textEnd) ∨ (∃ f, o = .fault f) ∨ ∃ q, o = .refused q

theorem ended_runSteps {s : State} {n : Nat} (h : s.inv) (hr : s.status = .running) (hn : s.remaining = n) :
    Ended (runSteps (n + 1) s) := by
  induction n generalizing s with
  | zero =>
    have he := (atEnd_iff_remaining_eq_zero h).mpr hn
    rw [runSteps_succ, step_atEnd hr he]
    exact .inl ⟨s.finish, rfl, rfl, by simpa [State.atEnd] using he⟩
  | succ n ih =>
    rw [runSteps_succ]
    cases hstep : step s with
    | next t =>
      obtain ⟨hinv, ht, hleft, -⟩ := remaining_step h hr hn hstep
      exact ih hinv ht hleft
    | fault f => exact .inr (.inl ⟨f, rfl⟩)
    | refused q => exact .inr (.inr ⟨q, rfl⟩)

theorem pc_runSteps {s t : State} {k : Nat} (h : s.inv) (hr : s.status = .running) (hk : k ≤ s.remaining)
    (hrun : runSteps k s = .next t) : t.status = .running ∧ t.pc.toNat = s.pc.toNat + 4 * k := by
  induction k generalizing s with
  | zero =>
    obtain rfl : s = t := Host.Outcome.next.inj hrun
    exact ⟨hr, rfl⟩
  | succ k ih =>
    rw [runSteps_succ] at hrun
    obtain ⟨u, hstep, hrun⟩ := andThen_eq_next.mp hrun
    obtain ⟨n, hn⟩ : ∃ n, s.remaining = n + 1 := Nat.exists_eq_succ_of_ne_zero (by omega)
    obtain ⟨hinv, hu, hleft, hpc⟩ := remaining_step h hr hn hstep
    obtain ⟨ht, hend⟩ := ih hinv hu (by omega) hrun
    exact ⟨ht, by omega⟩

/-! ### The statements -/

/-- Settles O8: a word that matches no row does not decode, and that refusal is the step's. -/
theorem unlistedWordRefused : Obligations.UnlistedWordRefused := fun _ _ hr he hfetch hw =>
  have hstep := step_eq_reservedInstruction hr he hfetch hw
  ⟨hstep, tick_of_step_eq_refused hstep⟩

/-- Settles O11: the write of the word 0 goes to register 0 and is discarded. -/
theorem zeroWordOnlyAdvancesPc : Obligations.ZeroWordOnlyAdvancesPc := by
  have hdecode : decode 0#32 = .ok (.sll 0 0 0) := decode_sllWord 0 0 0
  refine ⟨hdecode, fun s hr he hfetch => ?_⟩
  rw [step_eq_exec hr he hfetch hdecode, exec_sll, State.writeReg_zero, State.advance]

/-- Settles O12: in the text a fetch answers the word of `PROGRAM` there, and the run is not at its end. -/
theorem stepRunsDecodedInstruction : Obligations.StepRunsDecodedInstruction := fun _ _ _ hr ha ht hw hdecode =>
  step_eq_exec hr (atEnd_eq_false_of_inText ht) (fetch_eq_next.mpr ⟨ha, ht, hw⟩) hdecode

/-- Settles O13: each clause is the way the fetch ends there. -/
theorem stepChecksInOrder : Obligations.StepChecksInOrder := by
  intro s hr
  refine ⟨fun hend => step_atEnd hr (beq_iff_eq.mpr hend),
    fun hne ha => (step_eq_fault hr).mpr ⟨hne, .inl (fetch_misaligned ha)⟩,
    fun hne ha ht => (step_eq_refused hr).mpr ⟨hne, .inl (fetch_outside ha ht)⟩, fun ha ht => ?_⟩
  have he := atEnd_eq_false_of_inText ht
  have hfetch := fetch_inText ha ht
  obtain ⟨-, -, hw⟩ := fetch_eq_next.mp hfetch
  exact ⟨_, hw, fun e hdecode => step_eq_reservedInstruction hr he hfetch (wellFormedWord_eq_false_iff.mpr ⟨e, hdecode⟩),
    fun i => step_eq_exec hr he hfetch⟩

/-- Settles O14: the step at `TEXT_END` is `finish`, and a tick leaves a final state alone. -/
theorem endOfRunIsFinal : Obligations.EndOfRunIsFinal :=
  ⟨fun _ hr hend => tick_atEnd hr (beq_iff_eq.mpr hend), fun _ k hs => ticks_of_tick_eq (tick_final hs) k⟩

/-- Settles O15: before the end of the text there is room for the 4 bytes the pc goes on, below 2^32. -/
theorem completedInstructionAdvancesPc : Obligations.CompletedInstructionAdvancesPc := by
  refine ⟨fun i s t => exec_pc, fun s t h hr he hstep => ?_, fun i s => after_pc_of_stop⟩
  obtain ⟨-, -, -, ha, -, -, -⟩ := inv_of_step h hstep
  obtain ⟨-, -, hpc⟩ := step_before_end h hr he hstep
  exact ⟨hpc, (aligned_iff _).mp ha⟩

/-- Settles O16, by the three ways a step answers a next state. -/
theorem stepKeepsInvariant : Obligations.StepKeepsInvariant := fun _ _ h => inv_of_step h

/-- Settles O17: the reset state is a launch of parameters that meet the constraints. -/
theorem resetHasInvariant : Obligations.ResetHasInvariant :=
  inv_of_isLaunch ⟨Config.resetParams, Vector.replicate 31 Config.resetRegister, [], by decide, Memory.wf_nil, rfl,
    fun _ hc => absurd hc List.not_mem_nil⟩

/-- Settles O18: the memory lists no byte, and each of the 32 registers is read. -/
theorem resetState : Obligations.ResetState :=
  ⟨rfl, rfl, State.readReg_zero _, by decide, fun _ => rfl, rfl, rfl⟩

/-- Settles O20, by the parameters of each tick. -/
theorem parametersNeverChange : Obligations.ParametersNeverChange := fun s k => ticks_params k s

/-- Settles O21: before the end of the text a fetch answers, and no instruction stops as a fetch does. -/
theorem fetchStopsUnreachable : Obligations.FetchStopsUnreachable := by
  intro s h hr
  refine ⟨fun a hstep => ?_, fun a hstep => ?_⟩
  · obtain ⟨hne, hfault⟩ := (step_eq_fault hr).mp hstep
    obtain ⟨w, hw⟩ := exists_fetch_of_inv h ((atEnd_eq_false_iff s).mpr hne)
    simp [hw, exec_eq_fault] at hfault
  · obtain ⟨hne, hrefused⟩ := (step_eq_refused hr).mp hstep
    obtain ⟨w, hw⟩ := exists_fetch_of_inv h ((atEnd_eq_false_iff s).mpr hne)
    simp [hw, exec_eq_refused, checkAccess_eq_refused] at hrefused

/-- Settles O22, by induction on the words left. -/
theorem everyRunEnds : Obligations.EveryRunEnds := fun _ h hr => ended_runSteps h hr rfl

/-- Settles O23, by induction on the steps. -/
theorem wordsExecuteInAddressOrder : Obligations.WordsExecuteInAddressOrder := fun _ _ _ => pc_runSteps

end Sys2Proof.Machine
end

section
/-! The laws the statements about registers and about words of memory (spec/10_state.md section 2, spec/20_memory.md) need beyond
`Sys2Proof/Laws/`, and the proofs of those statements. -/

namespace Sys2Proof.Machine

/-! ### Outcomes that are alike: the same stop, or values in a relation -/

/-- Two operations stopped alike, or answered values that stand in the relation. -/
inductive Alike {α β : Type} (R : α → β → Prop) : Answer α → Answer β → Prop where
  | next {a : α} {b : β} (h : R a b) : Alike R (.next a) (.next b)
  | fault (f : Fault) : Alike R (.fault f) (.fault f)
  | refused (q : Refusal) : Alike R (.refused q) (.refused q)

theorem Alike.refl {α : Type} (o : Answer α) : Alike Eq o o :=
  match o with
  | .next _ => .next rfl
  | .fault f => .fault f
  | .refused q => .refused q

theorem Alike.andThen {α β γ δ : Type} {R : α → β → Prop} {S : γ → δ → Prop} {o : Answer α} {p : Answer β}
    {k : α → Answer γ} {l : β → Answer δ} (h : Alike R o p) (hk : ∀ a b, R a b → Alike S (k a) (l b)) :
    Alike S (andThen o k) (andThen p l) := by
  cases h with
  | next h => exact hk _ _ h
  | fault f => exact .fault f
  | refused q => exact .refused q

/-! ### What an instruction can look at (R13, R30) -/

/-- The two states agree in all that the instruction can look at: the registers it reads, the pc, the address map and the
words of memory. -/
structure SameOperands (i : Instr) (s t : State) : Prop where
  readReg : ∀ r ∈ regsRead i, t.readReg r = s.readReg r
  pc : t.pc = s.pc
  regionOf : ∀ a, t.params.regionOf a = s.params.regionOf a
  readWord : ∀ a, aligned a = true → t.readWord a = s.readWord a

section
variable {i : Instr} {s t : State} (h : SameOperands i s t)
include h

theorem SameOperands.source {r : RegNum} (hi : regsRead i = [r]) : t.readReg r = s.readReg r :=
  h.readReg r (by simp [hi])

theorem SameOperands.sources {r q : RegNum} (hi : regsRead i = [r, q]) :
    t.readReg r = s.readReg r ∧ t.readReg q = s.readReg q :=
  ⟨h.readReg r (by simp [hi]), h.readReg q (by simp [hi])⟩

variable {R : State → State → Prop}

theorem SameOperands.alike_overflow {overflows : Bool} {d : RegNum} {v : Word}
    (hwrite : R (s.writeReg d v).advance (t.writeReg d v).advance) :
    Alike R (writeUnlessOverflow overflows i s d v) (writeUnlessOverflow overflows i t d v) := by
  cases overflows
  · exact .next hwrite
  · rw [writeUnlessOverflow_true, writeUnlessOverflow_true, h.pc]
    exact .fault _

theorem SameOperands.alike_access {kind : AccessKind} {ea : Word} {u v : State} (hdone : aligned ea = true → R u v) :
    Alike R (andThen (checkAccess s kind ea) (fun _ => .next u)) (andThen (checkAccess t kind ea) (fun _ => .next v)) := by
  rw [checkAccess_congr h.regionOf]
  cases hcheck : checkAccess s kind ea with
  | next _ =>
    obtain ⟨ha, -⟩ := checkAccess_eq_next.mp hcheck
    exact .next (hdone ha)
  | fault f => exact .fault f
  | refused q => exact .refused q

/-- Two states that agree in what an instruction can look at stop alike, or it writes the same value to the same register of
both, or stores the same word at the same address of both. -/
theorem exec_alike
    (hwrite : ∀ d v, regWritten i = some d → R (s.writeReg d v).advance (t.writeReg d v).advance)
    (hstore : ∀ a v, regWritten i = none → aligned a = true → R (s.writeWord a v).advance (t.writeWord a v).advance) :
    Alike R (exec i s) (exec i t) := by
  cases i with
  | add rd rs rt =>
    obtain ⟨hrs, hrt⟩ := h.sources rfl
    rw [exec_add, exec_add, hrs, hrt]
    exact h.alike_overflow (hwrite _ _ rfl)
  | sub rd rs rt =>
    obtain ⟨hrs, hrt⟩ := h.sources rfl
    rw [exec_sub, exec_sub, hrs, hrt]
    exact h.alike_overflow (hwrite _ _ rfl)
  | addi rt rs imm =>
    rw [exec_addi, exec_addi, h.source rfl]
    exact h.alike_overflow (hwrite _ _ rfl)
  | lw rt rs imm =>
    rw [exec_lw, exec_lw, effectiveAddress, effectiveAddress, h.source rfl]
    exact h.alike_access fun ha => h.readWord _ ha ▸ hwrite _ _ rfl
  | sw rt rs imm =>
    obtain ⟨hrs, hrt⟩ := h.sources rfl
    rw [exec_sw, exec_sw, effectiveAddress, effectiveAddress, hrs, hrt]
    exact h.alike_access (hstore _ _ rfl)
  | and rd rs rt =>
    obtain ⟨hrs, hrt⟩ := h.sources rfl
    rw [exec_and, exec_and, hrs, hrt]
    exact .next (hwrite _ _ rfl)
  | or rd rs rt =>
    obtain ⟨hrs, hrt⟩ := h.sources rfl
    rw [exec_or, exec_or, hrs, hrt]
    exact .next (hwrite _ _ rfl)
  | xor rd rs rt =>
    obtain ⟨hrs, hrt⟩ := h.sources rfl
    rw [exec_xor, exec_xor, hrs, hrt]
    exact .next (hwrite _ _ rfl)
  | nor rd rs rt =>
    obtain ⟨hrs, hrt⟩ := h.sources rfl
    rw [exec_nor, exec_nor, hrs, hrt]
    exact .next (hwrite _ _ rfl)
  | andi rt rs imm =>
    rw [exec_andi, exec_andi, h.source rfl]
    exact .next (hwrite _ _ rfl)
  | ori rt rs imm =>
    rw [exec_ori, exec_ori, h.source rfl]
    exact .next (hwrite _ _ rfl)
  | sll rd rt shamt =>
    rw [exec_sll, exec_sll, h.source rfl]
    exact .next (hwrite _ _ rfl)
  | srl rd rt shamt =>
    rw [exec_srl, exec_srl, h.source rfl]
    exact .next (hwrite _ _ rfl)
  | sra rd rt shamt =>
    rw [exec_sra, exec_sra, h.source rfl]
    exact .next (hwrite _ _ rfl)

end

/-- The instruction left the same value in the register it writes, the same pc and the same memory. -/
def SameWrites (i : Instr) (s t : State) : Prop :=
  (∀ d, regWritten i = some d → t.readReg d = s.readReg d) ∧ t.pc = s.pc ∧ t.mem = s.mem

theorem exec_sameWrites {i : Instr} {s t : State} (hregs : ∀ r ∈ regsRead i, t.readReg r = s.readReg r)
    (hpc : t.pc = s.pc) (hmem : t.mem = s.mem) (hparams : t.params = s.params) :
    Alike (SameWrites i) (exec i s) (exec i t) := by
  have hoperands : SameOperands i s t :=
    ⟨hregs, hpc, fun a => by rw [hparams], fun a _ => by rw [State.readWord, State.readWord, hmem, hparams]⟩
  refine exec_alike hoperands (fun d v hd => ?_) (fun a v hnone _ => ?_)
  · refine ⟨fun e he => ?_, by simp [hpc], by simp [hmem]⟩
    obtain rfl : d = e := Option.some.inj (hd.symm.trans he)
    simp [State.readReg_writeReg]
  · exact ⟨by simp [hnone], by simp [hpc], by simp [State.writeWord_mem, hmem, hparams]⟩

/-! ### Destination 0 (R11) -/

/-- The second outcome is the first with its result discarded: only the advance is left of a next state, and a stop stays
one of the same kind. -/
def DiscardsResult (s : State) (o p : Answer State) : Prop :=
  match o with
  | .next _ => p = .next s.advance
  | .fault _ => ∃ g, p = .fault g
  | .refused q => p = .refused q

section
variable (s : State) (d : RegNum) (v : Word)

theorem discardsResult_write (u : State) : DiscardsResult s (.next u) (.next (s.writeReg 0 v).advance) := by
  rw [DiscardsResult, State.writeReg_zero]

theorem discardsResult_overflow (overflows : Bool) (i j : Instr) :
    DiscardsResult s (writeUnlessOverflow overflows i s d v) (writeUnlessOverflow overflows j s 0 v) := by
  cases overflows
  · exact discardsResult_write s v _
  · exact ⟨_, rfl⟩

theorem discardsResult_access (kind : AccessKind) (ea : Word) (u : State) :
    DiscardsResult s (andThen (checkAccess s kind ea) (fun _ => .next u))
      (andThen (checkAccess s kind ea) (fun _ => .next (s.writeReg 0 v).advance)) := by
  cases checkAccess s kind ea with
  | next _ => exact discardsResult_write s v u
  | fault f => exact ⟨f, rfl⟩
  | refused q => rfl

end

theorem exec_withDestination_zero {i : Instr} (s : State) (hi : regWritten i ≠ none) :
    DiscardsResult s (exec i s) (exec (withDestination 0 i) s) := by
  cases i with
  | add rd rs rt => exact discardsResult_overflow s rd _ _ _ _
  | sub rd rs rt => exact discardsResult_overflow s rd _ _ _ _
  | addi rt rs imm => exact discardsResult_overflow s rt _ _ _ _
  | lw rt rs imm =>
    rw [withDestination, exec_lw, exec_lw]
    exact discardsResult_access s _ _ _ _
  | sw rt rs imm => exact absurd rfl hi
  | and rd rs rt => exact discardsResult_write s _ _
  | or rd rs rt => exact discardsResult_write s _ _
  | xor rd rs rt => exact discardsResult_write s _ _
  | nor rd rs rt => exact discardsResult_write s _ _
  | andi rt rs imm => exact discardsResult_write s _ _
  | ori rt rs imm => exact discardsResult_write s _ _
  | sll rd rt shamt => exact discardsResult_write s _ _
  | srl rd rt shamt => exact discardsResult_write s _ _
  | sra rd rt shamt => exact discardsResult_write s _ _

/-! ### The memory an instruction leaves -/

/-- Only `sw` lists no register, and only it changes memory. -/
theorem exec_mem {i : Instr} {s t : State} (h : exec i s = .next t) (hi : regWritten i ≠ none) : t.mem = s.mem := by
  obtain ⟨d, v, -, rfl⟩ | ⟨rt, rs, imm, rfl, -, -, -⟩ := exec_eq_next h
  · simp
  · exact absurd rfl hi

theorem exec_sw_eq_next {rt rs : RegNum} {imm : Imm} {s t : State} (h : exec (.sw rt rs imm) s = .next t) :
    aligned (effectiveAddress s rs imm) = true ∧ s.params.regionOf (effectiveAddress s rs imm) = .data ∧
      t = (s.writeWord (effectiveAddress s rs imm) (s.readReg rt)).advance := by
  obtain ⟨u, hu, ht⟩ := andThen_eq_next.mp h
  obtain ⟨ha, hd, rfl⟩ := memWrite_eq_next.mp hu
  exact ⟨ha, hd, (Host.Outcome.next.inj ht).symm⟩

/-! ### States with the same words (R27) -/

section
variable {s t : State}

theorem readReg_congr (h : t.regs = s.regs) (r : RegNum) : t.readReg r = s.readReg r := by
  simp [State.readReg, h]

theorem regs_writeReg_congr (h : t.regs = s.regs) (d : RegNum) (v : Word) :
    (t.writeReg d v).regs = (s.writeReg d v).regs :=
  State.regs_ext fun r => by simp only [State.readReg_writeReg, readReg_congr h]

section
variable (h : sameWords s t)
include h

theorem sameOperands_of_sameWords (i : Instr) : SameOperands i s t := by
  obtain ⟨hparams, hregs, hpc, -, hword⟩ := h
  exact ⟨fun r _ => readReg_congr hregs r, hpc, fun a => by rw [hparams]; rfl, hword⟩

theorem fetchInstr_of_sameWords : fetchInstr t = fetchInstr s := by
  obtain ⟨hparams, -, hpc, -, -⟩ := h
  rw [fetchInstr, fetchInstr, fetch, fetch, State.fetchIndex, State.fetchIndex, hpc, hparams]
  rfl

theorem atEnd_of_sameWords : t.atEnd = s.atEnd := by
  obtain ⟨hparams, -, hpc, -, -⟩ := h
  rw [State.atEnd, State.atEnd, hpc, hparams]
  rfl

theorem sameWords_finish : sameWords s.finish t.finish := by
  obtain ⟨hparams, hregs, hpc, -, hword⟩ := h
  exact ⟨hparams, hregs, hpc, rfl, hword⟩

theorem sameWords_advance : sameWords s.advance t.advance := by
  obtain ⟨hparams, hregs, hpc, hstatus, hword⟩ := h
  exact ⟨hparams, hregs, by simp [hpc], hstatus, hword⟩

theorem sameWords_writeReg (d : RegNum) (v : Word) : sameWords (s.writeReg d v) (t.writeReg d v) := by
  obtain ⟨hparams, hregs, hpc, hstatus, hword⟩ := h
  exact ⟨by simpa using hparams, regs_writeReg_congr hregs d v, by simpa using hpc, by simpa using hstatus,
    by simpa using hword⟩

theorem sameWords_writeWord (hs : s.mem.wf) (ht : t.mem.wf) {a : Word} (ha : aligned a = true) (v : Word) :
    sameWords (s.writeWord a v) (t.writeWord a v) := by
  obtain ⟨hparams, hregs, hpc, hstatus, hword⟩ := h
  refine ⟨hparams, hregs, hpc, hstatus, fun b hb => ?_⟩
  by_cases hba : b = a
  · rw [hba, State.readWord_writeWord_same hs, State.readWord_writeWord_same ht]
  · rw [State.readWord_writeWord_other hs v ha hb hba, State.readWord_writeWord_other ht v ha hb hba, hword b hb]

end

/-- The relation that every step keeps: the same words, each state holding them canonically. -/
def SameCanonicalWords (s t : State) : Prop := sameWords s t ∧ s.mem.wf ∧ t.mem.wf

section
variable (h : SameCanonicalWords s t)
include h

theorem exec_sameCanonicalWords (i : Instr) : Alike SameCanonicalWords (exec i s) (exec i t) := by
  obtain ⟨hwords, hs, ht⟩ := h
  refine exec_alike (sameOperands_of_sameWords hwords i) (fun d v _ => ?_) (fun a v _ ha => ?_)
  · exact ⟨sameWords_advance (sameWords_writeReg hwords d v), by simpa using hs, by simpa using ht⟩
  · exact ⟨sameWords_advance (sameWords_writeWord hwords hs ht ha v), Memory.wf_writeWord hs _ _ _,
      Memory.wf_writeWord ht _ _ _⟩

theorem step_sameCanonicalWords : Alike SameCanonicalWords (step s) (step t) := by
  have ⟨hwords, hs, ht⟩ := h
  have ⟨_, _, _, hstatus, _⟩ := hwords
  rw [step, step, answerOfStatus, answerOfStatus, hstatus, atEnd_of_sameWords hwords, fetchInstr_of_sameWords hwords]
  cases hcase : s.status with
  | running =>
    rw [if_pos rfl, if_pos rfl]
    cases s.atEnd with
    | true => exact .next ⟨sameWords_finish hwords, hs, ht⟩
    | false => exact (Alike.refl (fetchInstr s)).andThen fun i _ hi => hi ▸ exec_sameCanonicalWords h i
  | final => exact .next h
  | faulted f => exact .fault f
  | refused q => exact .refused q

end

theorem runSteps_sameCanonicalWords (k : Nat) (h : SameCanonicalWords s t) :
    Alike SameCanonicalWords (runSteps k s) (runSteps k t) := by
  induction k generalizing s t with
  | zero => exact .next h
  | succ k ih =>
    rw [runSteps_succ, runSteps_succ]
    exact (step_sameCanonicalWords h).andThen fun _ _ => ih

theorem sameWordsOutcome_of_alike {o p : Answer State} (h : Alike SameCanonicalWords o p) : sameWordsOutcome o p := by
  cases h with
  | next h =>
    obtain ⟨hwords, -, -⟩ := h
    exact hwords
  | fault f => rfl
  | refused q => rfl

end

/-! ### The statements -/

/-- Settles O24: the access and overflow checks do not look at the destination, and the write to register 0 is no write. -/
theorem registerZeroHardwired : Obligations.RegisterZeroHardwired :=
  ⟨State.readReg_zero, State.writeReg_zero, fun _ s hi => exec_withDestination_zero s hi⟩

/-- Settles O25: the two states agree in all that the instruction can look at. -/
theorem resultDependsOnlyOnRegistersRead : Obligations.ResultDependsOnlyOnRegistersRead := by
  intro i s t hregs hpc hmem hparams _
  have halike := exec_sameWrites hregs hpc hmem hparams
  generalize exec i s = o, exec i t = p at halike ⊢
  cases halike with
  | next h => exact h
  | fault f => rfl
  | refused q => rfl

/-- Settles O26: an instruction that completes writes its one register, or is `sw` and stores one word. -/
theorem onlyListedStateChanges : Obligations.OnlyListedStateChanges := fun _ _ _ h =>
  ⟨fun _ => readReg_of_exec_eq_next h, fun hi _ => by rw [exec_mem h hi], exec_params h, exec_status h⟩

/-- Settles O37: the store leaves the address map as it is, so that a load of its address passes the same checks. -/
theorem loadReturnsLatestStore : Obligations.LoadReturnsLatestStore := by
  intro s t rt rs imm hm hsw
  obtain ⟨ha, hd, ht⟩ := exec_sw_eq_next hsw
  refine ⟨fun rd rb off hea => ?_, fun a ha4 hne => ?_⟩
  · have hload := exec_eq_next_of_data (exec_lw rd rb off t) (hea ▸ ha) (by rw [hea, exec_params hsw, hd])
    have hword : t.readWord (effectiveAddress t rb off) = s.readReg rt := by
      rw [hea, ht, State.advance_readWord, State.readWord_writeWord_same hm]
    exact ⟨_, hload, hword ▸ wroteRegister_writeReg_advance t rd _⟩
  · rw [ht, State.advance_readWord, State.readWord_writeWord_other hm _ ha ((aligned_iff a).mpr ha4) hne]

/-- Settles O39, by induction on the steps: each of them keeps the words the same and the memories canonical. -/
theorem byteOrderUnobservable : Obligations.ByteOrderUnobservable := fun k _ _ hs ht hwords =>
  sameWordsOutcome_of_alike (runSteps_sameCanonicalWords k ⟨hwords, hs, ht⟩)

end Sys2Proof.Machine
end

section
/-! The arithmetic reading of the shifts (spec/43_shift.md section 4). -/

namespace Sys2Proof.Machine

theorem readReg_written (s : State) {rd : RegNum} (hrd : rd ≠ 0#5) (v : Word) :
    (s.writeReg rd v).advance.readReg rd = v := by
  rw [State.advance_readReg, State.readReg_writeReg, if_neg hrd, if_pos rfl]

section
variable (a : Word) (n : Nat)

theorem toNat_shiftLeft_eq_mul_mod : (a <<< n).toNat = a.toNat * 2 ^ n % 2 ^ 32 := by
  rw [BitVec.toNat_shiftLeft, Nat.shiftLeft_eq]

/-- The signed and the unsigned reading of the source agree modulo 2^32, and so do their products. -/
theorem toInt_shiftLeft_eq_mul_bmod : (a <<< n).toInt = (a.toInt * 2 ^ n).bmod (2 ^ 32) := by
  rw [BitVec.toInt_shiftLeft, Nat.shiftLeft_eq, BitVec.toInt_eq_toNat_bmod, Int.bmod_mul_bmod, Nat.cast_mul,
    Nat.cast_pow, Nat.cast_ofNat]

theorem toNat_ushiftRight_eq_div : (a >>> n).toNat = a.toNat / 2 ^ n := by
  rw [BitVec.toNat_ushiftRight, Nat.shiftRight_eq_div_pow]

theorem toInt_sshiftRight_eq_fdiv : (a.sshiftRight n).toInt = a.toInt.fdiv (2 ^ n) := by
  rw [BitVec.toInt_sshiftRight, Int.shiftRight_eq_div_pow, Int.fdiv_eq_ediv_of_nonneg _ (by positivity), Nat.cast_pow,
    Nat.cast_ofNat]

end

/-- Settles O50: a shift by `n` multiplies or divides by `2^n`, and the reduction modulo 2^32 does nothing to a product that
fits. -/
theorem shiftsMultiplyAndDivide : Obligations.ShiftsMultiplyAndDivide := by
  intro rd rt shamt s hrd
  refine ⟨⟨_, exec_sll rd rt shamt s, ?_⟩, ⟨_, exec_srl rd rt shamt s, ?_⟩, ⟨_, exec_sra rd rt shamt s, ?_⟩⟩
  · rw [readReg_written s hrd]
    refine ⟨toNat_shiftLeft_eq_mul_mod _ _, fun hfits => ?_, fun hlow hhigh => ?_⟩
    · have hpow : 2 ^ (32 - shamt.toNat) * 2 ^ shamt.toNat = 2 ^ 32 := pow_sub_mul_pow 2 shamt.isLt.le
      rw [toNat_shiftLeft_eq_mul_mod, Nat.mod_eq_of_lt]
      exact hpow ▸ Nat.mul_lt_mul_of_pos_right hfits (by positivity)
    · rw [toInt_shiftLeft_eq_mul_bmod, Int.bmod_eq_of_le (by omega) (by omega)]
  · rw [readReg_written s hrd, toNat_ushiftRight_eq_div]
  · rw [readReg_written s hrd, toInt_sshiftRight_eq_fdiv]

end Sys2Proof.Machine
end

section
/-! The laws the statements about assembly lines (spec/30_encoding.md section 5) need, and the proofs of those statements. -/

namespace Sys2Proof

/-! ### Registers by name (R12) -/

/-- Each register's name is a spelling of that register and of no register before it. -/
theorem regOfName_regName : ∀ r : RegNum, regOfName (regName r) = some r := by
  decide

theorem asmReg_of_regOfName {n : String} {r : RegNum} (h : regOfName n = some r) : asmReg n = .ok r := by
  rw [asmReg, h]

@[simp] theorem asmReg_regName (r : RegNum) : asmReg (regName r) = .ok r :=
  asmReg_of_regOfName (regOfName_regName r)

/-! ### Constants and their fields (R56, R57, R58) -/

theorem asmConst_of_inRange {inRange : Int → Bool} {c : Int} (width : Nat) (h : inRange c = true) :
    asmConst inRange width c = .ok (BitVec.ofInt width c) := by
  rw [asmConst, if_pos h]

theorem asmConst_of_not_inRange {inRange : Int → Bool} {c : Int} (width : Nat) (h : ¬ inRange c = true) :
    asmConst inRange width c = .error (.constantOutOfRange c) := by
  rw [asmConst, if_neg h]

theorem signedConstant_iff {c : Int} : signedConstant c = true ↔ -32768 ≤ c ∧ c ≤ 32767 := by
  simp [signedConstant]

theorem unsignedConstant_iff {c : Int} : unsignedConstant c = true ↔ 0 ≤ c ∧ c ≤ 65535 := by
  simp [unsignedConstant]

theorem shiftConstant_iff {c : Int} : shiftConstant c = true ↔ 0 ≤ c ∧ c ≤ 31 := by
  simp [shiftConstant]

@[simp] theorem asmConst_toInt (imm : Imm) : asmConst signedConstant 16 imm.toInt = .ok imm := by
  have hlow : -(2 ^ 15) ≤ imm.toInt := BitVec.le_toInt imm
  have hhigh : imm.toInt < 2 ^ 15 := BitVec.toInt_lt
  rw [asmConst_of_inRange 16 (signedConstant_iff.mpr (by omega)), BitVec.ofInt_toInt]

@[simp] theorem asmConst_toNat (imm : Imm) : asmConst unsignedConstant 16 imm.toNat = .ok imm := by
  have := imm.isLt
  rw [asmConst_of_inRange 16 (unsignedConstant_iff.mpr (by omega)), BitVec.ofInt_natCast, BitVec.ofNat_toNat,
    BitVec.setWidth_eq]

@[simp] theorem asmConst_shamt (shamt : Shamt) : asmConst shiftConstant 5 shamt.toNat = .ok shamt := by
  have := shamt.isLt
  rw [asmConst_of_inRange 5 (shiftConstant_iff.mpr (by omega)), BitVec.ofInt_natCast, BitVec.ofNat_toNat,
    BitVec.setWidth_eq]

theorem toInt_ofInt_of_signedConstant {c : Int} (h : signedConstant c = true) : (BitVec.ofInt 16 c).toInt = c := by
  obtain ⟨hlow, hhigh⟩ := signedConstant_iff.mp h
  rw [BitVec.toInt_ofInt, Int.bmod_eq_of_le (by omega) (by omega)]

theorem toNat_ofInt_of_unsignedConstant {c : Int} (h : unsignedConstant c = true) :
    ((BitVec.ofInt 16 c).toNat : Int) = c := by
  obtain ⟨hlow, hhigh⟩ := unsignedConstant_iff.mp h
  rw [BitVec.toNat_ofInt]
  omega

/-! ### The operand forms, as `disassemble` writes them (R55 to R58) -/

section
variable (name : String) (r q p : RegNum)

theorem asmThreeReg_regName (mk : RegNum → RegNum → RegNum → Instr) :
    asmThreeReg name mk [.reg (regName r), .reg (regName q), .reg (regName p)] = .ok (mk r q p) := by
  simp only [asmThreeReg, asmReg_regName]
  rfl

theorem asmShift_regName (mk : RegNum → RegNum → Shamt → Instr) (shamt : Shamt) :
    asmShift name mk [.reg (regName r), .reg (regName q), .const shamt.toNat] = .ok (mk r q shamt) := by
  simp only [asmShift, asmReg_regName, asmConst_shamt]
  rfl

theorem asmMemory_regName (mk : RegNum → RegNum → Imm → Instr) (imm : Imm) :
    asmMemory name mk [.reg (regName r), .mem imm.toInt (regName q)] = .ok (mk r q imm) := by
  simp only [asmMemory, asmReg_regName, asmConst_toInt]
  rfl

end

/-- A line of the register-immediate form with two registers' names: its constant decides. -/
theorem asmImmediate_of_names {t a : String} {rt rs : RegNum} (ht : regOfName t = some rt) (ha : regOfName a = some rs)
    (name : String) (inRange : Int → Bool) (mk : RegNum → RegNum → Imm → Instr) (c : Int) :
    asmImmediate name inRange mk [.reg t, .reg a, .const c] = (asmConst inRange 16 c).map (mk rt rs) := by
  simp only [asmImmediate, asmReg_of_regOfName ht, asmReg_of_regOfName ha]
  cases asmConst inRange 16 c <;> rfl

theorem asmImmediate_regName (name : String) (inRange : Int → Bool) (mk : RegNum → RegNum → Imm → Instr)
    (r q : RegNum) {c : Int} {imm : Imm} (hc : asmConst inRange 16 c = .ok imm) :
    asmImmediate name inRange mk [.reg (regName r), .reg (regName q), .const c] = .ok (mk r q imm) := by
  rw [asmImmediate_of_names (regOfName_regName r) (regOfName_regName q), hc, Except.map]

theorem assemble_disassemble (i : Instr) : assemble (disassemble i) = .ok i :=
  match i with
  | .sll rd rt shamt => asmShift_regName "sll" rd rt .sll shamt
  | .srl rd rt shamt => asmShift_regName "srl" rd rt .srl shamt
  | .sra rd rt shamt => asmShift_regName "sra" rd rt .sra shamt
  | .add rd rs rt => asmThreeReg_regName "add" rd rs rt .add
  | .sub rd rs rt => asmThreeReg_regName "sub" rd rs rt .sub
  | .and rd rs rt => asmThreeReg_regName "and" rd rs rt .and
  | .or rd rs rt => asmThreeReg_regName "or" rd rs rt .or
  | .xor rd rs rt => asmThreeReg_regName "xor" rd rs rt .xor
  | .nor rd rs rt => asmThreeReg_regName "nor" rd rs rt .nor
  | .addi rt rs imm => asmImmediate_regName "addi" signedConstant .addi rt rs (asmConst_toInt imm)
  | .andi rt rs imm => asmImmediate_regName "andi" unsignedConstant .andi rt rs (asmConst_toNat imm)
  | .ori rt rs imm => asmImmediate_regName "ori" unsignedConstant .ori rt rs (asmConst_toNat imm)
  | .lw rt rs imm => asmMemory_regName "lw" rt rs .lw imm
  | .sw rt rs imm => asmMemory_regName "sw" rt rs .sw imm

/-! ### The statements -/

/-- Settles O55: each operand form reads back the names and constants `asmOperands` wrote. -/
theorem assembleOfDisassemble : Obligations.AssembleOfDisassemble := assemble_disassemble

/-- Settles O56: with two registers' names the constant's range alone decides, and a constant in range is what its field
reads back. -/
theorem immediateConstantsInRange : Obligations.ImmediateConstantsInRange := by
  intro t a rt rs c ht ha
  have hline (name : String) (inRange : Int → Bool) (mk : RegNum → RegNum → Imm → Instr) :=
    asmImmediate_of_names ht ha name inRange mk c
  have haddi : assemble ⟨"addi", [.reg t, .reg a, .const c]⟩ = _ := hline "addi" signedConstant .addi
  have handi : assemble ⟨"andi", [.reg t, .reg a, .const c]⟩ = _ := hline "andi" unsignedConstant .andi
  have hori : assemble ⟨"ori", [.reg t, .reg a, .const c]⟩ = _ := hline "ori" unsignedConstant .ori
  rw [haddi, handi, hori, ← signedConstant_iff, ← unsignedConstant_iff]
  refine ⟨⟨fun hin => ?_, fun hout => ?_⟩, fun hin => ?_, fun hout => ?_⟩
  · rw [asmConst_of_inRange 16 hin]
    exact ⟨_, toInt_ofInt_of_signedConstant hin, rfl⟩
  · rw [asmConst_of_not_inRange 16 hout, Except.map]
  · rw [asmConst_of_inRange 16 hin]
    exact ⟨_, toNat_ofInt_of_unsignedConstant hin, rfl, rfl⟩
  · rw [asmConst_of_not_inRange 16 hout]
    exact ⟨rfl, rfl⟩

end Sys2Proof
end
